-- ==== Sys2Proof/Word.lean ====
section
/-! DEFINITION. The word types of the block: a command word, a frame, a binary64 pattern and the smaller
fields, all bit vectors numbered as R9 numbers them (bit 0 is the least significant). -/

namespace Sys2Proof

/-- The 256-bit command word `cmd[255:0]` (R37). -/
abbrev Command := BitVec 256

/-- The 112-bit Mode S frame `M[111:0]`, bit 111 first (R28, R50). -/
abbrev Frame := BitVec 112

/-- The response data port, as wide as a frame (R49). -/
abbrev Data := BitVec 112

/-- A 56-bit message element (R51, R52). -/
abbrev MsgElem := BitVec 56

/-- The 64-bit pattern of an IEEE 754 binary64 operand (R31). -/
abbrev Binary64 := BitVec 64

/-- One byte of a frame or of a callsign (R29, R46). -/
abbrev Byte := BitVec 8

end Sys2Proof
end

