-- ==== Sys2Proof/Config.lean ====
section
/-! DEFINITION. What an implementation fixes when the hardware is built (R8, R23): the types of the named
parameters, the record that holds a choice of each, and the one parameter the spec leaves OPEN, `LATENCY`.
The values this block has (R8's defaults) stand in Machine/Params.lean. -/

namespace Sys2Proof

/-- Parameter `ARITH` (R8, R12): how an operation marked `fl(...)` is evaluated. -/
inductive Arith where
  /-- each `fl(...)` is one IEEE 754 binary64 operation, rounded to nearest, ties to even -/
  | binary64
  /-- each `fl(...)` is the exact real operation -/
  | exact
deriving DecidableEq, Repr

/-- Parameter `ROUND_TIE` (R8, R12): what `round` does at an exact half. -/
inductive RoundTie where
  /-- half to even -/
  | even
  /-- half up, `floor(x + 1/2)` -/
  | up
deriving DecidableEq, Repr

/-- Parameter `CPR_OVERFLOW` (R8, R69): the 17-bit code of the rounded value 131072. -/
inductive CprOverflow where
  /-- 131072 becomes 131071 -/
  | clamp
  /-- 131072 becomes 0 -/
  | wrap
deriving DecidableEq, Repr

/-- Parameter `NL_INPUT` (R8, R68): the latitude whose zone count chooses the longitude zones. -/
inductive NlInput where
  /-- the input latitude -/
  | raw
  /-- the latitude the CPR latitude code denotes -/
  | encoded
deriving DecidableEq, Repr

/-- One of the 11 Gray bits of a Q0 altitude (R78): bit `i` of the 500-ft code or of the 100-ft code. -/
inductive GrayBit where
  | g500 (i : Fin 8)
  | g100 (i : Fin 3)
deriving DecidableEq, Repr

/-- A choice of every named parameter of R8 but `LATENCY`. -/
structure Params where
  arith : Arith
  roundTie : RoundTie
  cprOverflow : CprOverflow
  nlInput : NlInput
  /-- `Q0_MAP`: the Gray bits at field positions 0 to 6 and then 8 to 11, in that order; position 7 is the
  constant Q bit (R79). `Params.wellFormed` says that it is a permutation. -/
  q0Map : List GrayBit
deriving DecidableEq, Repr

/-- FREE VALUE (notes/assumptions/1): how many cycles beyond one the block takes over the `n`-th command it
accepts, whose word is `c`. R8 and R110 leave `LATENCY` open: finite, positive, possibly different per
command. It has no body, so nothing can rest on a value of it. -/
opaque Config.extraLatency : Nat → Command → Nat

/-- Parameter `LATENCY` (R8, R20, R110): the cycles from accepting the `n`-th command, whose word is `c`, to
the cycle that writes its response. It is positive. -/
def Config.latency (n : Nat) (c : Command) : Nat := Config.extraLatency n c + 1

end Sys2Proof
end

