-- ==== Sys2Proof/Machine/Arith.lean ====
section
/-! DEFINITION. The numbers of R12: exact rationals, the rounding `fl(...)` to binary64, and `round` to an
integer. Every operation not written inside `fl` is exact. -/

namespace Sys2Proof.Machine

/-- `2^e` for any integer `e`. -/
def pow2 : Int → Rat
  | .ofNat n => ((2 ^ n : Nat) : Rat)
  | .negSucc n => 1 / ((2 ^ (n + 1) : Nat) : Rat)

/-- The integer `k` with `2^k <= q < 2^(k+1)`, for a positive `q`. -/
def floorLog2 (q : Rat) : Int :=
  let k : Int := (Nat.log2 q.num.natAbs : Int) - (Nat.log2 q.den : Int)
  if pow2 k ≤ q then k else k - 1

/-- `round(x)` (R12): the integer nearest `x`, a tie decided by `ROUND_TIE`. -/
def roundInt (tie : RoundTie) (x : Rat) : Int :=
  let f := ⌊x⌋
  if x - f < 1 / 2 then f
  else if 1 / 2 < x - f then f + 1
  else match tie with
    | .even => if f % 2 = 0 then f else f + 1
    | .up => f + 1

/-- The spacing exponent of binary64 at the magnitude of `q`: 53 significant bits, and never finer than
`2^-1074` (gradual underflow). -/
def ulpExp (q : Rat) : Int := max (floorLog2 |q| - 52) (-1074)

/-- The binary64 value nearest `q`, ties to the value whose last fraction bit is 0 (R12), for a magnitude that
does not overflow; `flNum` is the rounding with overflow. -/
def round64 (q : Rat) : Rat :=
  if q = 0 then 0 else (roundInt .even (q / pow2 (ulpExp q)) : Rat) * pow2 (ulpExp q)

/-- `fl(e)` (R12), for an operation that cannot overflow. -/
def fl (a : Arith) (q : Rat) : Rat :=
  match a with
  | .binary64 => round64 q
  | .exact => q

/-- A rounded result: a real number, or an infinity where binary64 overflows (R12). -/
inductive Num where
  | fin (q : Rat)
  | posInf
  | negInf
deriving DecidableEq, Repr

/-- `fl(e)` (R12) for the one operation that can overflow, the conversion of an altitude to feet. -/
def flNum (a : Arith) (q : Rat) : Num :=
  match a with
  | .exact => .fin q
  | .binary64 =>
    if pow2 1024 ≤ round64 q then .posInf
    else if round64 q ≤ -pow2 1024 then .negInf
    else .fin (round64 q)

/-- `n < q` where `+∞` is above every real (R12) and `-∞` below. -/
def Num.lt (n : Num) (q : Rat) : Bool :=
  match n with
  | .fin x => x < q
  | .posInf => false
  | .negInf => true

end Sys2Proof.Machine
end

