-- ==== Sys2Proof/Syntax.lean ====
section
/-! DEFINITION. The eight commands of R38 (the whole command set, R112), one constructor per row of
spec/opcode_table.json, each with the operand fields of its format (R41 to R47). A field's width is its
range (R48), so the types admit exactly the operand values the encoding admits. -/

namespace Sys2Proof

/-- A command with its operands (R38). The spellings `.e`, `.o`, `.baro`, `.gnss` are values of the one-bit
operands `odd` and `gnss`, and `verify` is `syndrome` (R56). -/
inductive Instr where
  /-- op 0x1, F_CRC: the CRC-24 parity of a frame's first 88 bits (R62) -/
  | parity (frame : Frame)
  /-- op 0x2, F_CRC: the CRC-24 syndrome of a whole frame (R63) -/
  | syndrome (frame : Frame)
  /-- op 0x3, F_NL: the zone count NL(lat) (R70) -/
  | nl (lat : Binary64)
  /-- op 0x4, F_CPR: the CPR latitude and longitude codes (R71) -/
  | cpr (odd : Bool) (lat lon : Binary64)
  /-- op 0x5, F_ALT: the altitude code and its kind (R81) -/
  | alt (gnss : Bool) (alt : Binary64)
  /-- op 0x6, F_FRAME: a frame from CA, ICAO and a given ME (R88) -/
  | frame (ca : BitVec 3) (icao : BitVec 24) (me : MsgElem)
  /-- op 0x7, F_IDENT: an identification frame (R89) -/
  | ident (ca : BitVec 3) (icao : BitVec 24) (tc : BitVec 5) (ec : BitVec 3) (cslen : BitVec 4) (cs : BitVec 64)
  /-- op 0x8, F_POS: an airborne-position frame (R90) -/
  | pos (ca : BitVec 3) (icao : BitVec 24) (tc : BitVec 5) (ss : BitVec 2) (saf gnss t odd : Bool)
      (alt lat lon : Binary64)
deriving DecidableEq, Repr

/-- The command's mnemonic, as spec/opcode_table.json spells it. -/
def Instr.mnemonic : Instr → String
  | .parity _ => "parity"
  | .syndrome _ => "syndrome"
  | .nl _ => "nl"
  | .cpr _ _ _ => "cpr"
  | .alt _ _ => "alt"
  | .frame _ _ _ => "frame"
  | .ident _ _ _ _ _ _ => "ident"
  | .pos _ _ _ _ _ _ _ _ _ _ _ => "pos"

end Sys2Proof
end

