-- ==== Sys2Proof/WellFormed.lean ====
section
/-! DEFINITION. Well-formedness. A term of `Instr` needs no check: every operand's type is as wide as its field
(R48: an integer field's width is its range). The checks there are concern a raw command word (R39, R40, R54)
and a choice of the named parameters (R8, R79). -/

namespace Sys2Proof

/-- One row of spec/opcode_table.json: a word `w` selects the row when `w &&& mask = pattern`. -/
structure OpcodeRow where
  mnemonic : String
  pattern : Command
  mask : Command
deriving DecidableEq, Repr

/-- The eight rows of spec/opcode_table.json, match and mask copied digit for digit. -/
def opcodeTable : List OpcodeRow :=
  [ ⟨"parity", 0x1000000000000000000000000000000000000000000000000000000000000000#256,
      0xFFFFFFFFFFFFFFFFFFFFFFFFFFFFFFFFFFFF0000000000000000000000000000#256⟩,
    ⟨"syndrome", 0x2000000000000000000000000000000000000000000000000000000000000000#256,
      0xFFFFFFFFFFFFFFFFFFFFFFFFFFFFFFFFFFFF0000000000000000000000000000#256⟩,
    ⟨"nl", 0x3000000000000000000000000000000000000000000000000000000000000000#256,
      0xFFFFFFFFFFFFFFFFFFFFFFFFFFFFFFFFFFFFFFFFFFFFFFFF0000000000000000#256⟩,
    ⟨"cpr", 0x4000000000000000000000000000000000000000000000000000000000000000#256,
      0xFFFFFFFFFFFFFFFFFFFFFFFFFFFFFFFE00000000000000000000000000000000#256⟩ ] ++
  [ ⟨"alt", 0x5000000000000000000000000000000000000000000000000000000000000000#256,
      0xFFFFFFFFFFFFFFFFFFFFFFFFFFFFFFFFFFFFFFFFFFFFFFFE0000000000000000#256⟩,
    ⟨"frame", 0x6000000000000000000000000000000000000000000000000000000000000000#256,
      0xFFFFFFFFFFFFFFFFFFFFFFFFFFFFFFFFFFFFFFFFFFF800000000000000000000#256⟩,
    ⟨"ident", 0x7000000000000000000000000000000000000000000000000000000000000000#256,
      0xFFFFFFFFFFFFFFFFFFFFFFFFFFFFFFFFFFFFF800000000F00000000000000000#256⟩,
    ⟨"pos", 0x8000000000000000000000000000000000000000000000000000000000000000#256,
      0xFFFFFFC000000000000000000000000000000000000000000000000000000000#256⟩ ]

/-- The word `w` selects the row `r` (the note of every row of spec/opcode_table.json). -/
def OpcodeRow.selects (r : OpcodeRow) (w : Command) : Bool := w &&& r.mask == r.pattern

/-- The word's op is one of the eight (R39's first check, R54). -/
def legalOp (w : Command) : Bool := opcodeTable.any fun r => w.extractLsb' 252 4 == r.pattern.extractLsb' 252 4

/-- A well-formed command word: some row of the opcode table selects it (R39, R40, R54). -/
def wellFormedWord (w : Command) : Bool := opcodeTable.any fun r => r.selects w

/-- The 11 Gray bits of R78. -/
def grayBits : List GrayBit :=
  [.g500 0, .g500 1, .g500 2, .g500 3, .g500 4, .g500 5, .g500 6, .g500 7, .g100 0, .g100 1, .g100 2]

/-- `Q0_MAP` is a permutation of the 11 Gray bits (R8, R79: each appears exactly once). -/
def Params.wellFormed (p : Params) : Bool :=
  p.q0Map.length == 11 && grayBits.all fun g => p.q0Map.contains g

end Sys2Proof
end

