-- ==== Sys2Proof/Decode.lean ====
section
/-! DEFINITION. The command word's fields, the reserved-bit masks, the decoder and the encoder (R37 to R48).
`decode` is total on all 256-bit words and rejects by name. -/

namespace Sys2Proof

/-- Why a word is no command (R39, R54). -/
inductive Illegal where
  /-- `op` is 0x0 or 0x9 to 0xF: reported as ILLEGAL with `FIELD_OP` -/
  | reservedOp
  /-- a bit of `RSV(op)` is 1: reported as ILLEGAL with `FIELD_RESERVED` -/
  | reservedBit
deriving DecidableEq, Repr

/-- `op = cmd[255:252]` (R37). -/
def opOf (c : Command) : BitVec 4 := c.extractLsb' 252 4

/-- The mask with ones at bits `hi` down to `lo` (R9). -/
def maskBits (hi lo : Nat) : Command := BitVec.ofNat 256 (2 ^ (hi + 1) - 2 ^ lo)

/-- `RSV(op)`, the mask of the reserved bits of each format (R40). -/
def reservedMask (op : BitVec 4) : Command :=
  match op.toNat with
  | 1 | 2 => maskBits 251 112
  | 3 => maskBits 251 64
  | 4 => maskBits 251 129
  | 5 => maskBits 251 65
  | 6 => maskBits 251 83
  | 7 => maskBits 251 107 ||| maskBits 71 68
  | 8 => maskBits 251 230
  | _ => 0

/-- The operands of a legal op, field by field (R41 to R47). -/
def operands (op : BitVec 4) (c : Command) : Except Illegal Instr :=
  match op.toNat with
  | 1 => .ok (.parity (c.extractLsb' 0 112))
  | 2 => .ok (.syndrome (c.extractLsb' 0 112))
  | 3 => .ok (.nl (c.extractLsb' 0 64))
  | 4 => .ok (.cpr (c.getLsbD 128) (c.extractLsb' 64 64) (c.extractLsb' 0 64))
  | 5 => .ok (.alt (c.getLsbD 64) (c.extractLsb' 0 64))
  | 6 => .ok (.frame (c.extractLsb' 80 3) (c.extractLsb' 56 24) (c.extractLsb' 0 56))
  | 7 => .ok (.ident (c.extractLsb' 104 3) (c.extractLsb' 80 24) (c.extractLsb' 75 5) (c.extractLsb' 72 3)
      (c.extractLsb' 64 4) (c.extractLsb' 0 64))
  | 8 => .ok (.pos (c.extractLsb' 227 3) (c.extractLsb' 203 24) (c.extractLsb' 198 5) (c.extractLsb' 196 2)
      (c.getLsbD 195) (c.getLsbD 194) (c.getLsbD 193) (c.getLsbD 192)
      (c.extractLsb' 128 64) (c.extractLsb' 64 64) (c.extractLsb' 0 64))
  | _ => .error .reservedOp

/-- The decoder: the two checks of `Execute` (R39), op before reserved bits, then the fields. -/
def decode (c : Command) : Except Illegal Instr :=
  if opOf c = 0 ∨ 9 ≤ opOf c then .error .reservedOp
  else if c &&& reservedMask (opOf c) ≠ 0 then .error .reservedBit
  else operands (opOf c) c

/-- The encoder: the word with every field of the format at its place and every reserved bit 0 (R38, R41 to R47). -/
def encode : Instr → Command
  | .parity frame => 0x1#4 ++ 0#140 ++ frame
  | .syndrome frame => 0x2#4 ++ 0#140 ++ frame
  | .nl lat => 0x3#4 ++ 0#188 ++ lat
  | .cpr odd lat lon => 0x4#4 ++ 0#123 ++ BitVec.ofBool odd ++ lat ++ lon
  | .alt gnss alt => 0x5#4 ++ 0#187 ++ BitVec.ofBool gnss ++ alt
  | .frame ca icao me => 0x6#4 ++ 0#169 ++ ca ++ icao ++ me
  | .ident ca icao tc ec cslen cs => 0x7#4 ++ 0#145 ++ ca ++ icao ++ tc ++ ec ++ 0#4 ++ cslen ++ cs
  | .pos ca icao tc ss saf gnss t odd alt lat lon =>
      0x8#4 ++ 0#22 ++ ca ++ icao ++ tc ++ ss ++ BitVec.ofBool saf ++ BitVec.ofBool gnss ++ BitVec.ofBool t ++
        BitVec.ofBool odd ++ alt ++ lat ++ lon

/-- The command word an opcode-table number stands for: bit 0 is the least significant, and every bit at or
above `nbits` is 0. The command is one word, so no byte order applies (R37, R33). -/
def tableWord (nbits w : Nat) : Command := BitVec.ofNat 256 (w % 2 ^ nbits)

/-- The instruction the decoder reads from an opcode-table number, or none where it refuses. -/
def decodeTableWord (nbits w : Nat) : Option Instr := (decode (tableWord nbits w)).toOption

end Sys2Proof
end

