-- ==== Sys2Proof/Machine/State.lean ====
section
/-! DEFINITION. The state of the block: the five registers of R17, the input ports of the coming cycles, and
the model's own bookkeeping of the LATENCY countdown and of what the host was given; the two ways a step can
stop; and the state after reset (R17, R105). -/

namespace Sys2Proof.Machine

/-- The input ports in one clock cycle (R17). `clk` is the step itself: one step is one cycle. -/
structure Ports where
  rst : Bool
  cmdValid : Bool
  cmd : Command
  rspReady : Bool
deriving DecidableEq, Repr

/-- One response the host took (R21), beside the command it answers. -/
structure Delivery where
  cmd : Command
  status : BitVec 3
  data : Data
deriving DecidableEq, Repr

/-- The state of `MODES_ENC`. The block has no other register, no memory and no program counter
(R14 to R17, R23 to R27). -/
structure State where
  /-- R17: a command has been accepted and its response has not yet been delivered -/
  busy : Bool
  /-- R17: copy of the accepted command word -/
  cmdQ : Command
  /-- R17: the response registers hold the response to `cmdQ` -/
  rspValid : Bool
  /-- R17, R18: the status of the response, the block's only condition code -/
  rspStatus : BitVec 3
  /-- R17: the data of the response -/
  rspData : Data
  /-- the model's own: cycles still to pass before the response is written (R20, R110) -/
  wait : Nat
  /-- the model's own: commands accepted so far; `Config.latency` is applied to it -/
  accepts : Nat
  /-- the model's own: what the outside world drives on the input ports, next cycle first -/
  inputs : List Ports
  /-- the model's own: the command on the port that has been offered and not yet accepted (R108 (a)) -/
  offered : Option Command
  /-- the model's own: the responses the host has taken, latest first (R21, R108 (c)) -/
  delivered : List Delivery
deriving DecidableEq, Repr

/-- The faults: none. The block has no trap and no case stops it from making progress (R99; 93 "stuck: never
used"), so a step never answers a fault. Safe and unsafe alike: there is no constructor to raise. -/
inductive Fault
deriving DecidableEq, Repr

/-- The refusals. -/
inductive Refusal where
  /-- raised by `exec` for a command that has no meaning in the model yet; safe -/
  | notModelled (mnemonic : String)
  /-- raised by `step` when the host changes `cmd` or drops `cmd_valid` before the command is accepted: the
  spec promises nothing about which command is accepted (R108 (a), I18 "refuse"); safe -/
  | commandNotHeld
deriving DecidableEq, Repr

/-- The state right after reset: every register at the value R17 and R105 give, no input given yet, nothing
offered, counted or delivered. -/
def State.reset : State where
  busy := false
  cmdQ := 0
  rspValid := false
  rspStatus := 0
  rspData := 0
  wait := 0
  accepts := 0
  inputs := []
  offered := none
  delivered := []

end Sys2Proof.Machine
end

