-- ==== Sys2Proof/Machine/Flags.lean ====
section
/-! DEFINITION. The status field, the block's only condition code (R18, R93), the error detail (R94) and the
response (R49): what a result writes and what an error writes. -/

namespace Sys2Proof.Machine

/-- The status of a response (R93). Codes 4 to 7 are never produced. -/
inductive Status where
  | ok
  | illegal
  | validation
  | range
deriving DecidableEq, Repr

/-- `rsp_status[2:0]` of a status (R93). -/
def statusCode : Status → BitVec 3
  | .ok => 0
  | .illegal => 1
  | .validation => 2
  | .range => 3

/-- The offending field of an error (R94). -/
inductive Field where
  | op
  | reserved
  | cslen
  | cschar
  | alt
  | lat
  | lon
deriving DecidableEq, Repr

/-- The field id of R94. -/
def fieldId : Field → BitVec 8
  | .op => 0x01
  | .reserved => 0x02
  | .cslen => 0x03
  | .cschar => 0x04
  | .alt => 0x05
  | .lat => 0x06
  | .lon => 0x07

/-- What ends a command with an error: `Status(field, index)` of R13. -/
structure CommandError where
  status : Status
  field : Field
  index : BitVec 4
deriving DecidableEq, Repr

/-- `raise Status(field, index)` (R13): no later step of the command runs. -/
def raise {α : Type} (status : Status) (field : Field) (index : BitVec 4) : Except CommandError α :=
  .error ⟨status, field, index⟩

/-- `(rsp_status, rsp_data)` (R20, R49). -/
structure Response where
  status : BitVec 3
  data : Data
deriving DecidableEq, Repr

/-- The error detail (R94): the field id in `[7:0]`, the character index in `[11:8]`, all else 0. -/
def errorDetail (e : CommandError) : Data := 0#100 ++ e.index ++ fieldId e.field

/-- The response of a command that ends with `result(v)` or `raise` (R13, R49, R92). -/
def responseOf : Except CommandError Data → Response
  | .ok d => ⟨statusCode .ok, d⟩
  | .error e => ⟨statusCode e.status, errorDetail e⟩

/-- The error of a word that is no command (R39, R54). -/
def illegalError : Illegal → CommandError
  | .reservedOp => ⟨.illegal, .op, 0⟩
  | .reservedBit => ⟨.illegal, .reserved, 0⟩

end Sys2Proof.Machine
end

