-- ==== Sys2Proof/Machine/Operands.lean ====
section
/-! DEFINITION. The binary64 operands (R31, R48): the pattern's parts, finiteness, the value `val64`, and the
latitude and longitude checks (R66, R96). -/

namespace Sys2Proof.Machine

/-- The biased exponent `f[62:52]` (R31). -/
def exponentOf (f : Binary64) : Nat := (f.extractLsb' 52 11).toNat

/-- The fraction `f[51:0]` (R31). -/
def fractionOf (f : Binary64) : Nat := (f.extractLsb' 0 52).toNat

/-- Neither an infinity nor a NaN: the exponent field is not all ones (R96). -/
def isFinite64 (f : Binary64) : Bool := exponentOf f != 2047

/-- The magnitude of a finite pattern: subnormal where the exponent field is 0 (R31, G1). -/
def magnitude64 (f : Binary64) : Rat :=
  if exponentOf f = 0 then (fractionOf f : Rat) * pow2 (-1074)
  else ((2 ^ 52 + fractionOf f : Nat) : Rat) * pow2 ((exponentOf f : Int) - 1075)

/-- `val64(f)` (R12): the real number a finite pattern denotes; `-0.0` has the value 0. -/
def val64 (f : Binary64) : Rat := if f.getLsbD 63 then -magnitude64 f else magnitude64 f

/-- `CheckLat(f)` (R66). -/
def checkLat (f : Binary64) : Except CommandError Unit :=
  if isFinite64 f = false ∨ 90 < |val64 f| then raise .range .lat 0 else .ok ()

/-- `CheckLon(f)` (R66). -/
def checkLon (f : Binary64) : Except CommandError Unit :=
  if isFinite64 f = false ∨ 180 < |val64 f| then raise .range .lon 0 else .ok ()

end Sys2Proof.Machine
end

