-- ==== Sys2Proof/Machine/Params.lean ====
section
/-! DEFINITION. The values of the named parameters this block has: the default column of R8, with the Q0
interleave table of R79. They are fixed when the hardware is built, and no command changes them (R23). -/

namespace Sys2Proof.Machine

/-- The default `Q0_MAP` (R79): the source bit of field positions 0 to 6, then 8 to 11. -/
def defaultQ0Map : List GrayBit :=
  [.g100 2, .g500 5, .g100 1, .g500 4, .g100 0, .g500 3, .g500 2, .g500 1, .g500 7, .g500 0, .g500 6]

/-- The parameters of `MODES_ENC` (R8's default column). -/
def params : Params where
  arith := .binary64
  roundTie := .even
  cprOverflow := .clamp
  nlInput := .raw
  q0Map := defaultQ0Map

end Sys2Proof.Machine
end

