-- ==== Sys2Proof/Machine/Ops.lean ====
section
/-! DEFINITION. The named operations on the state: reset, accept, count down, complete (the one operation that
writes a response, an error's as well as a result's), deliver; the host's side of the ports; and fetching the
command to compute. The cycle's rules are R19, R20, R21, R105 and R108. -/

namespace Sys2Proof.Machine

/-- The ports of a cycle in which the outside world does nothing new: no reset, no response taken, and the
offered command, if there is one, held as R108 (a) obliges. -/
def quietPorts (offered : Option Command) : Ports where
  rst := false
  cmdValid := offered.isSome
  cmd := offered.getD 0
  rspReady := false

/-- The input ports in the current cycle: the next entry of `inputs`, or a quiet cycle when none is left. -/
def State.ports (s : State) : Ports :=
  match s.inputs with
  | p :: _ => p
  | [] => quietPorts s.offered

/-- The output `cmd_ready = NOT busy` (R17), 0 in a cycle with `rst = 1` (R105). -/
def State.cmdReady (s : State) (p : Ports) : Bool := !p.rst && !s.busy

/-- The host broke R108 (a): a command was offered and is not held unchanged. -/
def State.holdBroken (s : State) (p : Ports) : Bool :=
  match s.offered with
  | none => false
  | some c => !(p.cmdValid && p.cmd == c)

/-- The passing of one cycle on the outside: the cycle's inputs are used up, and the command on the port stays
offered unless it is accepted in this cycle. -/
def State.tick (s : State) (p : Ports) : State :=
  { s with
    inputs := s.inputs.tail
    offered := if p.cmdValid && !s.cmdReady p then some p.cmd else none }

/-- Reset (R105): every register of R17 takes its reset value, at the end of the cycle (notes/assumptions/13), and a
command in progress is abandoned. -/
def State.resetRegisters (s : State) : State :=
  { s with busy := false, cmdQ := 0, rspValid := false, rspStatus := 0, rspData := 0, wait := 0 }

/-- Accept (R19): the whole command word is sampled; the countdown is loaded from `LATENCY` (R20, R110). -/
def State.accept (s : State) (c : Command) : State :=
  { s with busy := true, cmdQ := c, wait := Config.latency s.accepts c - 1, accepts := s.accepts + 1 }

/-- A cycle of `LATENCY` passes before the response is written (R20). -/
def State.countDown (s : State) : State := { s with wait := s.wait - 1 }

/-- Complete (R20): the response becomes valid, whole, in one cycle (R33). -/
def State.respond (s : State) (r : Response) : State :=
  { s with rspValid := true, rspStatus := r.status, rspData := r.data }

/-- Complete with what a command ended in: its result, or the error that is this block's whole exception entry
(R92, R94, R99): no state is saved, no mode changes and control goes nowhere, only the response is written. -/
def State.complete (s : State) (r : Except CommandError Data) : State := s.respond (responseOf r)

/-- Deliver (R21): the host takes the response; this is also all the return from an error there is (R100). -/
def State.deliver (s : State) : State :=
  { s with
    rspValid := false
    busy := false
    delivered := ⟨s.cmdQ, s.rspStatus, s.rspData⟩ :: s.delivered }

/-- Fetch: the command word to compute is `cmd_q` (R20). -/
def State.fetch (s : State) : Except Illegal Instr := decode s.cmdQ

/-- The response to a word that is no command (R39, R54). -/
def State.rejectCommand (s : State) (e : Illegal) : State := s.complete (.error (illegalError e))

/-- What happens in a cycle. -/
inductive Action where
  | reset
  | notHeld
  | idle
  | accept
  | compute
  | complete
  | stall
  | deliver
deriving DecidableEq, Repr

/-- The rule that applies in a cycle: reset before all (R105); a host that does not hold its command is refused
(R108 (a)); then accept (R19), compute and complete (R20), or deliver (R21). -/
def State.nextAction (s : State) (p : Ports) : Action :=
  if p.rst then .reset
  else if s.holdBroken p then .notHeld
  else if !s.busy then (if p.cmdValid then .accept else .idle)
  else if !s.rspValid then (if s.wait = 0 then .complete else .compute)
  else if p.rspReady then .deliver
  else .stall

/-- The state with `c` accepted and in its last cycle of computing, and a quiet cycle next: the very next step
computes `c`. -/
def State.placeCommand (s : State) (c : Command) : State :=
  { s with
    busy := true
    cmdQ := c
    rspValid := false
    wait := 0
    inputs := quietPorts s.offered :: s.inputs }

/-- The output ports in a cycle (R17). -/
structure Outputs where
  cmdReady : Bool
  rspValid : Bool
  rspStatus : BitVec 3
  rspData : Data
deriving DecidableEq, Repr

/-- The output ports of R17 as functions of the registers and of `rst` (R105). DESIGN CHOICE (notes/assumptions/13): the
registers are cleared at the end of a cycle with `rst = 1`, so in the first such cycle the response ports still show the
registers as they were before reset; only `cmd_ready` is 0 in it. -/
def State.outputs (s : State) : Outputs where
  cmdReady := s.cmdReady s.ports
  rspValid := s.rspValid
  rspStatus := s.rspStatus
  rspData := s.rspData

end Sys2Proof.Machine
end

