-- ==== Sys2Proof/Machine/Altitude.lean ====
section
/-! DEFINITION. The altitude unit (42_altitude.md): feet (R72), the checks (R73), the three encodings (R75 to
R79), the choice between them (R74, R80) and the command `alt` (R81). -/

namespace Sys2Proof.Machine

/-- `ft = fl(val64(alt) / C)`, C = 0.3048 (R72): the binary64 value nearest 0.3048 under `BINARY64`, exactly
381/1250 under `EXACT`. -/
def feet (a : Arith) (m : Rat) : Num :=
  match a with
  | .binary64 => flNum .binary64 (m / val64 0x3FD381D7DBF487FD#64)
  | .exact => flNum .exact (m * 1250 / 381)

/-- `CheckAlt(f)` (R73). -/
def checkAlt (p : Params) (f : Binary64) : Except CommandError Unit :=
  if isFinite64 f = false then raise .range .alt 0
  else if (feet p.arith (val64 f)).lt 0 then raise .validation .alt 0
  else .ok ()

/-- `AltGnss(m)` (R75): metres rounded to the nearest integer, in 12 bits. -/
def altGnss (p : Params) (m : Rat) : Except CommandError (BitVec 12) :=
  let v := roundInt p.roundTie m
  if 4095 < v then raise .range .alt 0 else .ok (BitVec.ofInt 12 v)

/-- `N = floor(fl(fl(ft + 1000) / 25))` (R76). -/
def q1Count (a : Arith) (ft : Rat) : Int := ⌊fl a (fl a (ft + 1000) / 25)⌋

/-- `N[10:5] ‖ 1 ‖ N[4:0]` (R76): the Q bit is `code[5]`. -/
def q1Code (n : BitVec 11) : BitVec 12 := n.extractLsb' 5 6 ++ 1#1 ++ n.extractLsb' 0 5

/-- `AltQ1(ft)` (R76). -/
def altQ1 (p : Params) (ft : Rat) : BitVec 12 := q1Code (BitVec.ofInt 11 (q1Count p.arith ft))

/-- `gray(n) = n ^ (n >> 1)` (R77). -/
def gray (n : Nat) : Nat := n ^^^ (n >>> 1)

/-- `n500 = floor(a / 500)` for the biased altitude `a` (R78), exact. -/
def count500 (a : Rat) : Nat := ⌊a / 500⌋.toNat

/-- `n100 = floor((a - 500*n500) / 100)` (R78), exact. -/
def count100 (a : Rat) : Nat := ⌊(a - 500 * count500 a) / 100⌋.toNat

/-- The value of a Gray bit in the two Gray codes of R78. -/
def grayBitOf (g500 : BitVec 8) (g100 : BitVec 3) : GrayBit → Bool
  | .g500 i => g500.getLsbD i
  | .g100 i => g100.getLsbD i

/-- The 12-bit field of twelve bits written most significant first (R10). -/
def fieldOfBits (bits : List Bool) : BitVec 12 :=
  bits.foldl (fun acc b => (acc <<< 1) ||| (BitVec.ofBool b).setWidth 12) 0

/-- `Interleave(g500, g100)` by a `Q0_MAP` (R79): position 7 is the constant 0. -/
def interleave (q0Map : List GrayBit) (g500 : BitVec 8) (g100 : BitVec 3) : BitVec 12 :=
  let bits := q0Map.map (grayBitOf g500 g100)
  fieldOfBits (bits.take 7 ++ [false] ++ bits.drop 7)

/-- The Q0 code of a biased altitude below 128000 ft (R78). -/
def q0Code (p : Params) (a : Rat) : BitVec 12 :=
  interleave p.q0Map (BitVec.ofNat 8 (gray (count500 a))) (BitVec.ofNat 3 (gray (count100 a)))

/-- `AltQ0(ft)` (R78): `a >= 128000` is RANGE, and `a` is `+∞` where `ft` is. -/
def altQ0 (p : Params) (ft : Num) : Except CommandError (BitVec 12) :=
  match ft with
  | .fin x =>
    let a := fl p.arith (x + 1300)
    if 128000 ≤ a then raise .range .alt 0 else .ok (q0Code p a)
  | .posInf | .negInf => raise .range .alt 0

/-- The kind an altitude was encoded by, `data[13:12]` of `alt` (R49, R80); 3 is never produced. -/
inductive AltKind where
  | gnss
  | q1
  | q0
deriving DecidableEq, Repr

/-- The 2-bit kind of R80. -/
def kindCode : AltKind → BitVec 2
  | .gnss => 0
  | .q1 => 1
  | .q0 => 2

/-- The barometric encoding: Q1 below 50175 ft, Q0 at or above (R74, R80). -/
def altBaro (p : Params) (ft : Num) : Except CommandError (AltKind × BitVec 12) :=
  match ft with
  | .fin x =>
    if x < 50175 then .ok (.q1, altQ1 p x)
    else (altQ0 p (.fin x)).map fun code => (.q0, code)
  | .posInf | .negInf => (altQ0 p ft).map fun code => (.q0, code)

/-- `AltEncode(f, gnss)` (R80). -/
def altEncode (p : Params) (f : Binary64) (gnss : Bool) : Except CommandError (AltKind × BitVec 12) := do
  checkAlt p f
  if gnss then (altGnss p (val64 f)).map fun code => (.gnss, code)
  else altBaro p (feet p.arith (val64 f))

/-- `ALT_CMD` (R81). -/
def altCommand (p : Params) (gnss : Bool) (alt : Binary64) : Except CommandError Data := do
  let kc ← altEncode p alt gnss
  .ok ((kindCode kc.1 ++ kc.2).setWidth 112)

/-- `alt` (R81). -/
def execAlt (gnss : Bool) (alt : Binary64) (s : State) : Host.Outcome State Fault Refusal :=
  .next (s.complete (altCommand params gnss alt))

end Sys2Proof.Machine
end

