-- ==== Sys2Proof/Machine/Cpr.lean ====
section
/-! DEFINITION. The CPR unit (41_cpr.md): the zone count NL as the comparator table of R65, the CPR quantizer
(R67 to R69) and the commands `nl` (R70) and `cpr` (R71). -/

namespace Sys2Proof.Machine

/-- The NL threshold table (R65): each zone count `n` with the bit pattern of `B_n`, the largest binary64
latitude that still has `n` zones. -/
def nlTable : List (Nat × Binary64) :=
  [ (2, 0x4055C00000000000#64), (3, 0x4055A243806D99EC#64),
    (4, 0x40557058BD3A9B97#64), (5, 0x40553910FD1A6F97#64),
    (6, 0x4054FF7898B812C5#64), (7, 0x4054C49B8E990D6B#64),
    (8, 0x405488EEB6311C24#64), (9, 0x40544CAC40C8D969#64),
    (10, 0x40540FF36B54E0AB#64), (11, 0x4053D2D5853CCAC5#64) ] ++
  [ (12, 0x4053955C027EB7D0#64), (13, 0x4053578B95D91AE8#64),
    (14, 0x40531965E3FD8F53#64), (15, 0x4052DAEA7F414BC2#64),
    (16, 0x40529C177F4A9F80#64), (17, 0x40525CE9DF3E337D#64),
    (18, 0x40521D5DB94B81BA#64), (19, 0x4051DD6E6C7A4B74#64),
    (20, 0x40519D16B441997B#64), (21, 0x40515C50B672A1AB#64) ] ++
  [ (22, 0x40511B160A43DF0F#64), (23, 0x4050D95FBA3B36C5#64),
    (24, 0x40509726420D2AB4#64), (25, 0x40505461891909FC#64),
    (26, 0x40501108D9DEE6AF#64), (27, 0x404F9A25AD2B6CFA#64),
    (28, 0x404F10EAD5BB5A9F#64), (29, 0x404E864B74CDC944#64),
    (30, 0x404DFA30188580F4#64), (31, 0x404D6C7F64E8373B#64) ] ++
  [ (32, 0x404CDD1DDA58A0B6#64), (33, 0x404C4BED91EDB82C#64),
    (34, 0x404BB8CDEDBEC4A7#64), (35, 0x404B239B3AB4590D#64),
    (36, 0x404A8C2E40C13690#64), (37, 0x4049F25BBD841E7F#64),
    (38, 0x404955F3C428DFAE#64), (39, 0x4048B6C0FBCE367F#64),
    (40, 0x40481487B395284B#64), (41, 0x40476F04C08ECA22#64) ] ++
  [ (42, 0x4046C5EC15A09137#64), (43, 0x404618E6FF9C74C4#64),
    (44, 0x40456791E74DDF0D#64), (45, 0x4044B1796EB17123#64),
    (46, 0x4043F616AB9A41DF#64), (47, 0x404334CA24AFAE13#64),
    (48, 0x40426CD506FA440C#64), (49, 0x40419D4FBD7E22EE#64),
    (50, 0x4040C51C91B7812A#64), (51, 0x403FC5A8276E3D93#64) ] ++
  [ (52, 0x403DE94EAED92AF4#64), (53, 0x403BF061756B1A26#64),
    (54, 0x4039D44989387B4D#64), (55, 0x40378B880F707B5C#64),
    (56, 0x403507866D05F6E0#64), (57, 0x40322FAEF828A751#64),
    (58, 0x402DA8067889CBED#64), (59, 0x4024F0E19D3E251D#64) ]

/-- `NL(lat)` (R65): 1 above 87 degrees, else the greatest `n` whose threshold the latitude does not exceed. -/
def zoneCount (lat : Rat) : Nat :=
  if 87 < |lat| then 1
  else ((nlTable.filter fun e => |lat| ≤ val64 e.2).map Prod.fst).foldl max 0

/-- The number of latitude zones per hemisphere constant `NZ` (R64). -/
def latitudeZonesNZ : Nat := 15

/-- The latitude zones of a frame: `4*NZ - odd` (R67). -/
def latZones (odd : Bool) : Nat := 4 * latitudeZonesNZ - odd.toNat

/-- `dLat`, `dLon`: the zone size `fl(360 / Z)` (R67, R68). -/
def zoneSize (p : Params) (zones : Nat) : Rat := fl p.arith (360 / zones)

/-- `j = floor(fl(x / d))`, the zone index (R67, R68). -/
def zoneIndex (p : Params) (x d : Rat) : Int := ⌊fl p.arith (x / d)⌋

/-- `r = fl(x - fl(d * j))`, the residual (R67, R68). -/
def zoneResidual (p : Params) (x d : Rat) : Rat := fl p.arith (x - fl p.arith (d * zoneIndex p x d))

/-- `round(fl(r / d) * 2^17)`, the scaled residual (R67, R68). -/
def scaledResidual (p : Params) (x d : Rat) : Int :=
  roundInt p.roundTie (fl p.arith (zoneResidual p x d / d) * 2 ^ 17)

/-- `Sat17` (R69). -/
def sat17 (o : CprOverflow) (y : Int) : BitVec 17 :=
  match o with
  | .clamp => BitVec.ofInt 17 (max 0 (min y 131071))
  | .wrap => BitVec.ofInt 17 y

/-- `CprLat(lat, odd)` (R67). -/
def cprLat (p : Params) (lat : Rat) (odd : Bool) : BitVec 17 :=
  sat17 p.cprOverflow (scaledResidual p lat (zoneSize p (latZones odd)))

/-- The latitude the CPR latitude code denotes, `dLat * (j + y / 2^17)` (R8 `NL_INPUT = ENCODED`;
notes/assumptions/5). Under `CLAMP` the code 131072 is saturated first; under `WRAP` the code 0 that stands for
131072 denotes the start of the next zone, which is what 131072 gives. -/
def denotedLat (p : Params) (lat : Rat) (odd : Bool) : Rat :=
  let d := zoneSize p (latZones odd)
  let y : Int := match p.cprOverflow with
    | .clamp => max 0 (min (scaledResidual p lat d) 131071)
    | .wrap => scaledResidual p lat d
  fl p.arith (d * (zoneIndex p lat d + (y : Rat) / 2 ^ 17))

/-- The latitude given to NL for the longitude zones (R8, R68). -/
def nlLatitude (p : Params) (lat : Rat) (odd : Bool) : Rat :=
  match p.nlInput with
  | .raw => lat
  | .encoded => denotedLat p lat odd

/-- The longitude zones of a frame: `max(n, 1)` even, `max(n - 1, 1)` odd (R68). -/
def lonZones (n : Nat) (odd : Bool) : Nat := max (n - odd.toNat) 1

/-- `CprLon(lat, lon, odd)` (R68). -/
def cprLon (p : Params) (lat lon : Rat) (odd : Bool) : BitVec 17 :=
  sat17 p.cprOverflow (scaledResidual p lon (zoneSize p (lonZones (zoneCount (nlLatitude p lat odd)) odd)))

/-- `NL_CMD` (R70). -/
def nlCommand (lat : Binary64) : Except CommandError Data := do
  checkLat lat
  .ok ((BitVec.ofNat 6 (zoneCount (val64 lat))).setWidth 112)

/-- `CPR_CMD` (R71): latitude checked first. -/
def cprCommand (p : Params) (odd : Bool) (lat lon : Binary64) : Except CommandError Data := do
  checkLat lat
  checkLon lon
  .ok ((cprLat p (val64 lat) odd ++ cprLon p (val64 lat) (val64 lon) odd).setWidth 112)

/-- `nl` (R70). -/
def execNl (lat : Binary64) (s : State) : Host.Outcome State Fault Refusal :=
  .next (s.complete (nlCommand lat))

/-- `cpr` (R71). -/
def execCpr (odd : Bool) (lat lon : Binary64) (s : State) : Host.Outcome State Fault Refusal :=
  .next (s.complete (cprCommand params odd lat lon))

end Sys2Proof.Machine
end

