-- ==== Sys2Proof/Machine/Crc.lean ====
section
/-! DEFINITION. The CRC-24 unit (40_crc24.md): the byte-wise procedure of R58 and the commands `parity` (R62)
and `syndrome` (R63). -/

namespace Sys2Proof.Machine

/-- The generator bytes `G = [0xFF, 0xFA, 0x04, 0x80]` (R57). -/
def genByte : Nat → Nat
  | 0 => 0xFF
  | 1 => 0xFA
  | 2 => 0x04
  | 3 => 0x80
  | _ => 0

/-- Byte `k` of a frame, `M[111-8k : 104-8k]` (R29). -/
def frameByte (m : Frame) (k : Nat) : Byte := m.extractLsb' (104 - 8 * k) 8

/-- The 14 bytes of a frame, first byte first (R29, R58). -/
def frameBytes (m : Frame) : List Byte := (List.range 14).map (frameByte m)

/-- `B[i] <- B[i] ^ x`. -/
def xorByte (bs : List Byte) (i x : Nat) : List Byte := bs.modify i (· ^^^ BitVec.ofNat 8 x)

/-- The byte the generator shifted right by `b` puts at offset `j` from the byte under test (R58): the low bits
of `G[j-1]` that crossed the boundary, and the high bits of `G[j]`. -/
def genPattern (b : Nat) : Nat → Nat
  | 0 => genByte 0 >>> b
  | j + 1 => ((genByte j <<< (8 - b)) ||| (genByte (j + 1) >>> b)) &&& 0xFF

/-- The loop body of R58 for bit `b` of byte `i`: the bit is tested after the XORs of earlier bits. -/
def crcBit (i : Nat) (bs : List Byte) (b : Nat) : List Byte :=
  if (bs.getD i 0).getLsbD (7 - b) then
    xorByte (xorByte (xorByte (xorByte bs i (genPattern b 0)) (i + 1) (genPattern b 1)) (i + 2) (genPattern b 2))
      (i + 3) (genPattern b 3)
  else bs

/-- The inner loop of R58: bits 0 to 7 of byte `i`, most significant first. -/
def crcByte (bs : List Byte) (i : Nat) : List Byte := (List.range 8).foldl (crcBit i) bs

/-- The frame `CRC24` works on: in encode mode its last 3 bytes are zeroed first (R58). -/
def crcInput (m : Frame) (enc : Bool) : Frame := if enc then m.extractLsb' 24 88 ++ 0#24 else m

/-- The bytes after the loops of R58: bytes 0 to 10 have been worked through. -/
def crcBytes (m : Frame) : List Byte := (List.range 11).foldl crcByte (frameBytes m)

/-- `CRC24(M, encode)` (R58): the last three bytes, most significant first. -/
def crc24 (m : Frame) (enc : Bool) : BitVec 24 :=
  let bs := crcBytes (crcInput m enc)
  bs.getD 11 0 ++ bs.getD 12 0 ++ bs.getD 13 0

/-- `PARITY` (R62). -/
def parityCommand (frame : Frame) : Except CommandError Data := .ok ((crc24 frame true).setWidth 112)

/-- `SYNDROME` (R63): a nonzero syndrome is data, not an error. -/
def syndromeCommand (frame : Frame) : Except CommandError Data := .ok ((crc24 frame false).setWidth 112)

/-- `parity` (R62). -/
def execParity (frame : Frame) (s : State) : Host.Outcome State Fault Refusal :=
  .next (s.complete (parityCommand frame))

/-- `syndrome` (R63). -/
def execSyndrome (frame : Frame) (s : State) : Host.Outcome State Fault Refusal :=
  .next (s.complete (syndromeCommand frame))

end Sys2Proof.Machine
end

