-- ==== Sys2Proof/Machine/Assembler.lean ====
section
/-! DEFINITION. The message assembler (43_assembler.md): header and frame (R82, R83), the callsign (R84, R85),
the two message elements (R86, R87) and the commands `frame` (R88), `ident` (R89) and `pos` (R90). -/

namespace Sys2Proof.Machine

/-- `H88(ca, icao, me)` (R82): DF is always 17. -/
def h88 (ca : BitVec 3) (icao : BitVec 24) (me : MsgElem) : BitVec 88 := 17#5 ++ ca ++ icao ++ me

/-- `BuildFrame(ca, icao, me)` (R83): the header and its parity. -/
def buildFrame (ca : BitVec 3) (icao : BitVec 24) (me : MsgElem) : Frame :=
  h88 ca icao me ++ crc24 (h88 ca icao me ++ 0#24) true

/-- The 6-bit code of an ASCII character, none outside the callsign alphabet (R84). -/
def charCode (ch : Byte) : Option (BitVec 6) :=
  if ch = 0x20 then some 32
  else if 0x41 ≤ ch ∧ ch ≤ 0x5A then some ((ch - 0x40).setWidth 6)
  else if 0x30 ≤ ch ∧ ch ≤ 0x39 then some (ch.setWidth 6)
  else none

/-- Character byte `i` of a callsign, `cs[63-8i : 56-8i]` (R46). -/
def csByte (cs : BitVec 64) (i : Nat) : Byte := cs.extractLsb' (56 - 8 * i) 8

/-- The lowest index of an invalid character among the first `n` (R85). -/
def firstInvalid (cs : BitVec 64) (n : Nat) : Option Nat :=
  (List.range n).find? fun i => (charCode (csByte cs i)).isNone

/-- The code at position `i` of the canonical callsign: the character's, or a space past the given length (R85). -/
def callsignCode (cslen : BitVec 4) (cs : BitVec 64) (i : Nat) : BitVec 6 :=
  if i < cslen.toNat then (charCode (csByte cs i)).getD 32 else 32

/-- `Callsign(cslen, cs)` (R85): the eight codes, first character first. -/
def callsign (cslen : BitVec 4) (cs : BitVec 64) : Except CommandError (List (BitVec 6)) :=
  if 8 < cslen.toNat then raise .range .cslen 0
  else match firstInvalid cs cslen.toNat with
    | some i => raise .validation .cschar (BitVec.ofNat 4 i)
    | none => .ok ((List.range 8).map (callsignCode cslen cs))

/-- `IdentME(tc, ec, c)` (R51, R86). -/
def identMe (tc : BitVec 5) (ec : BitVec 3) (c : List (BitVec 6)) : MsgElem :=
  tc ++ ec ++ c.getD 0 32 ++ c.getD 1 32 ++ c.getD 2 32 ++ c.getD 3 32 ++ c.getD 4 32 ++ c.getD 5 32 ++
    c.getD 6 32 ++ c.getD 7 32

/-- `PosME(tc, ss, saf, altcode, t, odd, yz, xz)` (R52, R87). -/
def posMe (tc : BitVec 5) (ss : BitVec 2) (saf : Bool) (altcode : BitVec 12) (t odd : Bool) (yz xz : BitVec 17) :
    MsgElem :=
  tc ++ ss ++ BitVec.ofBool saf ++ altcode ++ BitVec.ofBool t ++ BitVec.ofBool odd ++ yz ++ xz

/-- `FRAME_CMD` (R88): the ME is used as given. -/
def frameCommand (ca : BitVec 3) (icao : BitVec 24) (me : MsgElem) : Except CommandError Data :=
  .ok (buildFrame ca icao me)

/-- `IDENT_CMD` (R89). -/
def identCommand (ca : BitVec 3) (icao : BitVec 24) (tc : BitVec 5) (ec : BitVec 3) (cslen : BitVec 4)
    (cs : BitVec 64) : Except CommandError Data := do
  let ch ← callsign cslen cs
  .ok (buildFrame ca icao (identMe tc ec ch))

/-- `POS_CMD` (R90): altitude first, then latitude, then longitude. -/
def posCommand (p : Params) (ca : BitVec 3) (icao : BitVec 24) (tc : BitVec 5) (ss : BitVec 2)
    (saf gnss t odd : Bool) (alt lat lon : Binary64) : Except CommandError Data := do
  let kc ← altEncode p alt gnss
  checkLat lat
  checkLon lon
  .ok (buildFrame ca icao (posMe tc ss saf kc.2 t odd (cprLat p (val64 lat) odd)
    (cprLon p (val64 lat) (val64 lon) odd)))

/-- `frame` (R88). -/
def execFrame (ca : BitVec 3) (icao : BitVec 24) (me : MsgElem) (s : State) : Host.Outcome State Fault Refusal :=
  .next (s.complete (frameCommand ca icao me))

/-- `ident` (R89). -/
def execIdent (ca : BitVec 3) (icao : BitVec 24) (tc : BitVec 5) (ec : BitVec 3) (cslen : BitVec 4) (cs : BitVec 64)
    (s : State) : Host.Outcome State Fault Refusal :=
  .next (s.complete (identCommand ca icao tc ec cslen cs))

/-- `pos` (R90). -/
def execPos (ca : BitVec 3) (icao : BitVec 24) (tc : BitVec 5) (ss : BitVec 2) (saf gnss t odd : Bool)
    (alt lat lon : Binary64) (s : State) : Host.Outcome State Fault Refusal :=
  .next (s.complete (posCommand params ca icao tc ss saf gnss t odd alt lat lon))

end Sys2Proof.Machine
end

