-- ==== Sys2Proof/Machine/Dispatch.lean ====
section
/-! DEFINITION. One arm per command, each one direct call of its meaning (R38, R39). -/

namespace Sys2Proof.Machine

def exec (i : Instr) (s : State) : Host.Outcome State Fault Refusal :=
  match i with
  | .parity frame => Sys2Proof.Machine.execParity frame s
  | .syndrome frame => Sys2Proof.Machine.execSyndrome frame s
  | .nl lat => Sys2Proof.Machine.execNl lat s
  | .cpr odd lat lon => Sys2Proof.Machine.execCpr odd lat lon s
  | .alt gnss alt => Sys2Proof.Machine.execAlt gnss alt s
  | .frame ca icao me => Sys2Proof.Machine.execFrame ca icao me s
  | .ident ca icao tc ec cslen cs => Sys2Proof.Machine.execIdent ca icao tc ec cslen cs s
  | .pos ca icao tc ss saf gnss t odd alt lat lon => Sys2Proof.Machine.execPos ca icao tc ss saf gnss t odd alt lat lon s

end Sys2Proof.Machine
end

