-- ==== Sys2Proof/Machine/Step.lean ====
section
/-! DEFINITION. One step is one clock cycle (R19, R20, R21, R105): the ports of the cycle are read, and the rule
that applies is taken. In the cycle that completes a command the command in `cmd_q` is decoded and executed. -/

namespace Sys2Proof.Machine

/-- One clock cycle of the block. -/
def step (s : State) : Host.Outcome State Fault Refusal :=
  let p := s.ports
  let t := s.tick p
  match s.nextAction p with
  | .reset => .next t.resetRegisters
  | .notHeld => .refused .commandNotHeld
  | .idle => .next t
  | .accept => .next (t.accept p.cmd)
  | .compute => .next t.countDown
  | .complete =>
    match t.fetch with
    | .ok i => exec i t
    | .error e => .next (t.rejectCommand e)
  | .stall => .next t
  | .deliver => .next t.deliver

/-- `s` with the opcode-table number `w` placed where the next step takes its command from: in `cmd_q`, accepted,
its last cycle of computing next (notes/assumptions/6). -/
def State.withFetchWord (s : State) (nbits w : Nat) : State := s.placeCommand (tableWord nbits w)

end Sys2Proof.Machine
end

