-- ==== Sys2Proof/Machine/Asm.lean ====
section
/-! DEFINITION. The written forms of the spec: the hexadecimal rendering of a frame (R30, R53) and the assembler
syntax (R55, R56), each line of which stands for one 256-bit command word. -/

namespace Sys2Proof.Machine

/-- The digit of a nibble in the alphabet `0123456789ABCDEF` (R53). -/
def hexDigit (n : BitVec 4) : Char := "0123456789ABCDEF".toList.getD n.toNat '0'

/-- Hex digit `k` of a frame, `M[111-4k : 108-4k]` (R30). -/
def frameNibble (m : Frame) (k : Nat) : BitVec 4 := m.extractLsb' (108 - 4 * k) 4

/-- The 28-character rendering of a frame (R53). -/
def renderFrame (m : Frame) : List Char := (List.range 28).map fun k => hexDigit (frameNibble m k)

/-- The binary64 pattern nearest the real number of the given sign and magnitude `q` (R55: a decimal literal
denotes the nearest value, ties to even); an infinity beyond the binary64 range. -/
def toBinary64 (neg : Bool) (q : Rat) : Binary64 :=
  let v := round64 q
  let body : Nat :=
    if v = 0 then 0
    else if pow2 1024 ≤ v then 2047 * 2 ^ 52
    else
      let m := ⌊v / pow2 (ulpExp v)⌋.toNat
      if m < 2 ^ 52 then m else (ulpExp v + 1075).toNat * 2 ^ 52 + (m - 2 ^ 52)
  BitVec.ofBool neg ++ BitVec.ofNat 63 body

/-- A line without its comment: a `;` starts a comment (R55), but not inside a quoted callsign, where each double quote
of the line opens or closes a quoted stretch (DESIGN CHOICE, notes/assumptions/11). -/
def stripComment (quoted : Bool) : List Char → List Char
  | [] => []
  | c :: cs =>
    if c.toNat = 34 then c :: stripComment (!quoted) cs
    else if c = ';' ∧ quoted = false then []
    else c :: stripComment quoted cs

/-- A blank of a line. -/
def isBlank (c : Char) : Bool := c = ' ' || c.toNat = 9

/-- A piece of a line without the blanks around it. -/
def trimBlanks (cs : List Char) : List Char := ((cs.dropWhile isBlank).reverse.dropWhile isBlank).reverse

/-- The operands of a line, separated by commas (R55) outside quotes. -/
def splitCommas (quoted : Bool) (piece : List Char) : List Char → List (List Char)
  | [] => [trimBlanks piece.reverse]
  | c :: cs =>
    if c = ',' ∧ quoted = false then trimBlanks piece.reverse :: splitCommas false [] cs
    else splitCommas (if c.toNat = 34 then !quoted else quoted) (c :: piece) cs

/-- The value of a decimal digit. -/
def decDigit (c : Char) : Option Nat := if '0' ≤ c ∧ c ≤ '9' then some (c.toNat - 48) else none

/-- The value of a hexadecimal digit, of either case. -/
def hexDigitValue (c : Char) : Option Nat :=
  if '0' ≤ c ∧ c ≤ '9' then some (c.toNat - 48)
  else if 'A' ≤ c ∧ c ≤ 'F' then some (c.toNat - 55)
  else if 'a' ≤ c ∧ c ≤ 'f' then some (c.toNat - 87)
  else none

/-- A digit string in a base, most significant digit first; none where a digit is malformed or none is there. -/
def digitsValue (base : Nat) (digit : Char → Option Nat) (cs : List Char) : Option Nat :=
  if cs.isEmpty then none
  else cs.foldl (fun acc c => acc.bind fun n => (digit c).map fun d => n * base + d) (some 0)

/-- Exactly `n` hexadecimal digits (R55). -/
def hexField (n w : Nat) (cs : List Char) : Option (BitVec w) :=
  if cs.length = n then (digitsValue 16 hexDigitValue cs).map (BitVec.ofNat w) else none

/-- An unsigned decimal number of `w` bits, `<uw>` in R55. -/
def unsignedField (w : Nat) (cs : List Char) : Option (BitVec w) :=
  (digitsValue 10 decDigit cs).bind fun n => if n < 2 ^ w then some (BitVec.ofNat w n) else none

/-- What follows a prefix. -/
def afterPrefix (pre : String) (cs : List Char) : Option (List Char) :=
  if pre.toList.isPrefixOf cs then some (cs.drop pre.toList.length) else none

/-- The operand written `key=value`. -/
def keyed {α : Type} (key : String) (parse : List Char → Option α) (cs : List Char) : Option α :=
  (afterPrefix key cs).bind parse

/-- A sign in front of digits. -/
def signOf : List Char → Bool × List Char
  | '-' :: cs => (true, cs)
  | '+' :: cs => (false, cs)
  | cs => (false, cs)

/-- The exponent part of a decimal literal, `e` and a signed integer, or nothing. -/
def exponentPart : List Char → Option Int
  | [] => some 0
  | _ :: cs =>
    let sd := signOf cs
    (digitsValue 10 decDigit sd.2).map fun n => if sd.1 then -(n : Int) else n

/-- `10^e` for any integer `e`. -/
def pow10 : Int → Rat
  | .ofNat n => ((10 ^ n : Nat) : Rat)
  | .negSucc n => 1 / ((10 ^ (n + 1) : Nat) : Rat)

/-- An exponent mark of a decimal literal. -/
def isExpMark (c : Char) : Bool := c = 'e' || c = 'E'

/-- A decimal literal: sign, digits with at most one point, exponent (R55). -/
def decimalLiteral (cs : List Char) : Option Binary64 :=
  let sd := signOf cs
  let mantissa := sd.2.takeWhile fun c => !isExpMark c
  let whole := mantissa.takeWhile (· ≠ '.')
  let fraction := (mantissa.dropWhile (· ≠ '.')).drop 1
  (digitsValue 10 decDigit (whole ++ fraction)).bind fun n =>
    (exponentPart (sd.2.dropWhile fun c => !isExpMark c)).map fun e =>
      toBinary64 sd.1 ((n : Rat) * pow10 (e - fraction.length))

/-- `<lat>`, `<lon>`, `<alt>`: `f64:` and 16 hex digits giving the pattern, or a decimal literal (R55). -/
def floatField (cs : List Char) : Option Binary64 :=
  match afterPrefix "f64:" cs with
  | some digits => hexField 16 64 digits
  | none => decimalLiteral cs

/-- The callsign bytes, first character highest, unused bytes 0 (R46, R55). -/
def packChars (cs : List Char) : BitVec 64 :=
  (List.range 8).foldl
    (fun acc i => (acc <<< 8) ||| BitVec.ofNat 64 ((cs.map Char.toNat).getD i 0)) 0

/-- A quoted callsign of 0 to 8 one-byte characters: its length and bytes (R55). DESIGN CHOICE (notes/assumptions/11):
the string runs from the operand's first character to its last, both double quotes, so a double quote between them is
a character of the callsign; a character of 0x80 to 0xFF stands for the byte of its code point; and one above 0xFF
makes the line no command. -/
def callsignField (cs : List Char) : Option (BitVec 4 × BitVec 64) :=
  match cs with
  | q :: rest =>
    let body := rest.dropLast
    if q.toNat = 34 ∧ (rest.getLast?.map Char.toNat) = some 34 ∧ body.length ≤ 8 ∧ body.all (fun c => c.toNat < 256)
    then some (BitVec.ofNat 4 body.length, packChars body)
    else none
  | [] => none

/-- `baro=<alt>` sets `gnss = 0`, `gnss=<alt>` sets `gnss = 1` (R55). -/
def altitudeField (cs : List Char) : Option (Bool × Binary64) :=
  match afterPrefix "baro=" cs with
  | some v => (floatField v).map fun f => (false, f)
  | none => (keyed "gnss=" floatField cs).map fun f => (true, f)

/-- The operands of `pos.e` and `pos.o` (R55). -/
def posLine (odd : Bool) : List (List Char) → Option Instr
  | [ca, icao, tc, ss, saf, t, alt, lat, lon] => do
    let ca ← keyed "ca=" (unsignedField 3) ca
    let icao ← keyed "icao=" (hexField 6 24) icao
    let tc ← keyed "tc=" (unsignedField 5) tc
    let ss ← keyed "ss=" (unsignedField 2) ss
    let saf ← keyed "saf=" (unsignedField 1) saf
    let t ← keyed "t=" (unsignedField 1) t
    let ga ← altitudeField alt
    let lat ← keyed "lat=" floatField lat
    let lon ← keyed "lon=" floatField lon
    some (.pos ca icao tc ss (saf.getLsbD 0) ga.1 (t.getLsbD 0) odd ga.2 lat lon)
  | _ => none

/-- The operands of `frame` (R55). -/
def frameLine : List (List Char) → Option Instr
  | [ca, icao, me] => do
    let ca ← keyed "ca=" (unsignedField 3) ca
    let icao ← keyed "icao=" (hexField 6 24) icao
    let me ← keyed "me=" (hexField 14 56) me
    some (.frame ca icao me)
  | _ => none

/-- The operands of `ident` (R55). -/
def identLine : List (List Char) → Option Instr
  | [ca, icao, tc, ec, cs] => do
    let ca ← keyed "ca=" (unsignedField 3) ca
    let icao ← keyed "icao=" (hexField 6 24) icao
    let tc ← keyed "tc=" (unsignedField 5) tc
    let ec ← keyed "ec=" (unsignedField 3) ec
    let cs ← keyed "cs=" callsignField cs
    some (.ident ca icao tc ec cs.1 cs.2)
  | _ => none

/-- One operand. -/
def oneOperand {α : Type} (parse : List Char → Option α) (build : α → Instr) : List (List Char) → Option Instr
  | [x] => (parse x).map build
  | _ => none

/-- The operands of `cpr.e` and `cpr.o` (R55). -/
def cprLine (odd : Bool) : List (List Char) → Option Instr
  | [lat, lon] => (floatField lat).bind fun la => (floatField lon).map fun lo => .cpr odd la lo
  | _ => none

/-- The spellings of R55 and the alias `verify` of R56. -/
def spellings : List (String × (List (List Char) → Option Instr)) :=
  [ ("parity", oneOperand (hexField 28 112) .parity),
    ("syndrome", oneOperand (hexField 28 112) .syndrome),
    ("verify", oneOperand (hexField 28 112) .syndrome),
    ("nl", oneOperand floatField .nl),
    ("cpr.e", cprLine false),
    ("cpr.o", cprLine true) ] ++
  [ ("alt.baro", oneOperand floatField (.alt false)),
    ("alt.gnss", oneOperand floatField (.alt true)),
    ("frame", frameLine),
    ("ident", identLine),
    ("pos.e", posLine false),
    ("pos.o", posLine true) ]

/-- The command word an assembler line stands for (R55, R56), none for a line that is not of its syntax. -/
def assembleLine (line : String) : Option Command :=
  let cs := trimBlanks (stripComment false line.toList)
  let mnemonic := cs.takeWhile fun c => !isBlank c
  let ops := splitCommas false [] (cs.dropWhile fun c => !isBlank c)
  if mnemonic = ".cmd".toList then
    match ops with
    | [w] => hexField 64 256 w
    | _ => none
  else
    match spellings.find? (fun sp => sp.1.toList == mnemonic) with
    | some sp => (sp.2 ops).map encode
    | none => none

end Sys2Proof.Machine
end

