-- ==== Sys2Proof/Machine/Execute.lean ====
section
/-! DEFINITION. `Execute(c)` (R39): the response to a command word, as a function of the word alone and of the
build-time parameters. The machine answers commands through `exec`; this function is what R20 and R22 speak of,
and it takes the parameters of R8 as an argument, so that a statement can be made under any of them. -/

namespace Sys2Proof.Machine

/-- What a command ends in: its result or its error (R62, R63, R70, R71, R81, R88, R89, R90). -/
def commandResult (p : Params) : Instr → Except CommandError Data
  | .parity frame => parityCommand frame
  | .syndrome frame => syndromeCommand frame
  | .nl lat => nlCommand lat
  | .cpr odd lat lon => cprCommand p odd lat lon
  | .alt gnss alt => altCommand p gnss alt
  | .frame ca icao me => frameCommand ca icao me
  | .ident ca icao tc ec cslen cs => identCommand ca icao tc ec cslen cs
  | .pos ca icao tc ss saf gnss t odd alt lat lon => posCommand p ca icao tc ss saf gnss t odd alt lat lon

/-- `Execute(c)` under the parameters `p` (R39): the two decode checks, then the command. -/
def executeWith (p : Params) (c : Command) : Response :=
  match decode c with
  | .ok i => responseOf (commandResult p i)
  | .error e => responseOf (.error (illegalError e))

/-- `Execute(c)` of this block (R39, R8's default column). -/
def execute (c : Command) : Response := executeWith params c

end Sys2Proof.Machine
end

