-- ==== Sys2Proof/Safety.lean ====
section
/-! DEFINITION. What a safe run is, in the terms claims use: the invariant of the interface, the cycles of a
transaction and of a program (R16, R22), and the plain notions the claims compare the machine with (division of
polynomials over GF(2), the binary64 values, a checked operand). -/

namespace Sys2Proof.Safety

open Sys2Proof.Machine

/-- The invariant of the interface state (R17 to R21): a valid response belongs to a command in progress and is
what `Execute` gives for it; the LATENCY countdown runs only while a response is being computed; every response
the host has taken is what `Execute` gives for its command; and no command was answered twice. -/
structure Inv (s : State) : Prop where
  valid_busy : s.rspValid = true → s.busy = true
  answers : s.rspValid = true → (⟨s.rspStatus, s.rspData⟩ : Response) = execute s.cmdQ
  waiting : s.busy = false ∨ s.rspValid = true → s.wait = 0
  delivered_right : ∀ d ∈ s.delivered, (⟨d.status, d.data⟩ : Response) = execute d.cmd
  counted : s.delivered.length + s.busy.toNat ≤ s.accepts

/-- A block that can accept a command: idle, with nothing held over from an earlier offer. -/
def Ready (s : State) : Prop := s.busy = false ∧ s.rspValid = false ∧ s.offered = none

/-- The ports of a cycle in which the host offers `c`. -/
def offerPorts (c : Command) : Ports := ⟨false, true, c, false⟩

/-- The ports of a cycle in which the host takes the response. -/
def takePorts : Ports := ⟨false, false, 0, true⟩

/-- The ports of a cycle in which the host does nothing. -/
def idlePorts : Ports := ⟨false, false, 0, false⟩

/-- The cycles of one transaction for the `n`-th command: offer it, wait for `LATENCY`, take the response. -/
def transactionInputs (n : Nat) (c : Command) : List Ports :=
  offerPorts c :: (List.replicate (Config.latency n c) idlePorts ++ [takePorts])

/-- The cycles of a program (R16): its commands issued in list order, each taken before the next. -/
def programInputs (n : Nat) : List Command → List Ports
  | [] => []
  | c :: cs => transactionInputs n c ++ programInputs (n + 1) cs

/-- What the host takes for a command when `Execute` answers it. -/
def deliveryOf (c : Command) : Delivery := ⟨c, (execute c).status, (execute c).data⟩

/-- The transaction-level model (R22): one atomic step per command, `(s, d) = Execute(c)`. -/
def transact (s : State) (c : Command) : State :=
  { s with
    cmdQ := c
    rspStatus := (execute c).status
    rspData := (execute c).data
    wait := 0
    accepts := s.accepts + 1
    delivered := deliveryOf c :: s.delivered }

/-- The carry-less product of a quotient and a polynomial over GF(2), coefficients as bits. -/
def clmul (q : BitVec 88) (p : Frame) : Frame :=
  (List.range 88).foldl (fun acc i => if q.getLsbD i then acc ^^^ (p <<< i) else acc) 0

/-- `P(x)` of R57 as bits: the degree-24 generator. -/
def generatorPoly : Frame := 0x1FFF409

/-- `G32`, the generator bytes as one 32-bit big-endian word (R57). -/
def generatorWord : BitVec 32 := 0xFFFA0480

/-- The frame whose byte `k` is `bs[k]` (R29). -/
def frameOfBytes (bs : List Byte) : Frame :=
  (List.range 14).foldl (fun acc k => (acc <<< 8) ||| (bs.getD k 0).setWidth 112) 0

/-- The latitude operand passes `CheckLat` (R66). -/
def latValid (f : Binary64) : Prop := isFinite64 f = true ∧ |val64 f| ≤ 90

/-- The longitude operand passes `CheckLon` (R66). -/
def lonValid (f : Binary64) : Prop := isFinite64 f = true ∧ |val64 f| ≤ 180

/-- The least magnitude that overflows when it is rounded (R12): half a spacing above the greatest binary64 value. -/
def overflowMagnitude : Rat := 2 ^ 1024 - 2 ^ 970

/-- A number of feet that R72 can answer under an `ARITH` mode: any rational number under `EXACT`, a binary64 value
under `BINARY64`. -/
def feetValue (a : Arith) (ft : Rat) : Prop := a = .exact ∨ ∃ f : Binary64, isFinite64 f = true ∧ val64 f = ft

/-- Every one of the first `cslen` characters is in the callsign alphabet (R84, R85). -/
def callsignValid (cslen : BitVec 4) (cs : BitVec 64) : Prop :=
  cslen.toNat ≤ 8 ∧ ∀ i < cslen.toNat, charCode (csByte cs i) ≠ none

/-- A command whose OK response is a frame (R91). -/
def producesFrame : Instr → Bool
  | .frame _ _ _ | .ident _ _ _ _ _ _ | .pos _ _ _ _ _ _ _ _ _ _ _ => true
  | .parity _ | .syndrome _ | .nl _ | .cpr _ _ _ | .alt _ _ => false

/-- The capability and ICAO address a frame-producing command was given. -/
def addressOf : Instr → Option (BitVec 3 × BitVec 24)
  | .frame ca icao _ => some (ca, icao)
  | .ident ca icao _ _ _ _ => some (ca, icao)
  | .pos ca icao _ _ _ _ _ _ _ _ _ => some (ca, icao)
  | .parity _ | .syndrome _ | .nl _ | .cpr _ _ _ | .alt _ _ => none

/-- The errors R95 lets each command report. -/
def errorAllowed : Instr → CommandError → Prop
  | .parity _, _ | .syndrome _, _ | .frame _ _ _, _ => False
  | .nl _, e => e = ⟨.range, .lat, 0⟩
  | .cpr _ _ _, e => e = ⟨.range, .lat, 0⟩ ∨ e = ⟨.range, .lon, 0⟩
  | .alt _ _, e => e = ⟨.range, .alt, 0⟩ ∨ e = ⟨.validation, .alt, 0⟩
  | .ident _ _ _ _ cslen cs, e =>
      (e = ⟨.range, .cslen, 0⟩ ∧ 8 < cslen.toNat) ∨
      ∃ i < cslen.toNat, e = ⟨.validation, .cschar, BitVec.ofNat 4 i⟩ ∧ charCode (csByte cs i) = none
  | .pos _ _ _ _ _ _ _ _ _ _ _, e =>
      e = ⟨.range, .alt, 0⟩ ∨ e = ⟨.validation, .alt, 0⟩ ∨ e = ⟨.range, .lat, 0⟩ ∨ e = ⟨.range, .lon, 0⟩

end Sys2Proof.Safety
end

