-- ==== Sys2Proof/Certificates/Slice0/Obligations.lean ====
section
/-! DEFINITION. The statements for the provers, in the order of the spec's files: encoding, the interface, the
responses, the CRC unit, the CPR unit, the altitude unit, the assembler, the written forms and the arithmetic. -/

open Sys2Proof Sys2Proof.Machine Sys2Proof.Safety

/-! ### Encoding (30_encoding.md) -/

/-- R37, R38, R41 to R47: the decoder reads back every operand, at every value its field admits, from the word
the encoder writes. -/
def Obligations.EncodeThenDecodeGivesTheCommand : Prop := ∀ i : Instr, decode (encode i) = .ok i

/-- R40, R41 to R47: a command word holds nothing beside its op and its fields, so encoding what was decoded gives
the same word. -/
def Obligations.DecodeThenEncodeGivesTheWord : Prop :=
  ∀ (c : Command) (i : Instr), decode c = .ok i → encode i = c

/-- R39, R40, R54: the decoder, written from R40's masks, accepts exactly the words that a row of
spec/opcode_table.json selects, reads the instruction of that row, and no word selects two rows. -/
def Obligations.DecoderAcceptsExactlyTheTablesWords : Prop :=
  (∀ c : Command, wellFormedWord c = true ↔ ∃ i, decode c = .ok i) ∧
  (∀ (c : Command) (i : Instr), decode c = .ok i →
    ∃ r ∈ opcodeTable, r.selects c = true ∧ r.mnemonic = i.mnemonic) ∧
  (∀ c : Command, ∀ r₁ ∈ opcodeTable, ∀ r₂ ∈ opcodeTable, r₁.selects c = true → r₂.selects c = true → r₁ = r₂)

/-- R38, R41 to R47: one word of each format, written out from the spec's field positions, decodes to the command
it stands for. -/
def Obligations.SpecWordsDecodeToTheirCommands : Prop :=
  decode 0x1000000000000000000000000000000000008D4840D6202CC371C32CE0576098 =
    .ok (.parity 0x8D4840D6202CC371C32CE0576098) ∧
  decode 0x300000000000000000000000000000000000000000000000404A20EBEDFA43FE = .ok (.nl 0x404A20EBEDFA43FE) ∧
  decode 0x40000000000000000000000000000001404A20EBEDFA43FE400F5ADEA897635E =
    .ok (.cpr true 0x404A20EBEDFA43FE 0x400F5ADEA897635E) ∧
  decode 0x5000000000000000000000000000000000000000000000013FE0000000000000 =
    .ok (.alt true 0x3FE0000000000000) ∧
  decode 0x600000000000000000000000000000000000000000054840D6202CC371C32CE0 =
    .ok (.frame 5 0x4840D6 0x202CC371C32CE0) ∧
  decode 0x700000000000000000000000000000000000054840D620054B4C323034000000 =
    .ok (.ident 5 0x4840D6 4 0 5 0x4B4C323034000000) ∧
  decode 0x8000001091A2B27B40730CCCCCCCCCCDC040EF34D6A161E54062E6B295E9E1B1 =
    .ok (.pos 2 0x123456 9 3 true false true true 0x40730CCCCCCCCCCD 0xC040EF34D6A161E5 0x4062E6B295E9E1B1)

/-- R39, R40, R54: in the cycle that completes a word that is no command, the response is ILLEGAL with
`FIELD_OP` for a reserved op, and ILLEGAL with `FIELD_RESERVED` for a legal op with a reserved bit set, and
nothing but the response is written. The words are told apart by the opcode table, not by the decoder. -/
def Obligations.IllegalWordsAreReported : Prop :=
  ∀ s : State, s.nextAction s.ports = .complete →
    (legalOp s.cmdQ = false → step s = .next ((s.tick s.ports).respond ⟨1, 0x1⟩)) ∧
    (legalOp s.cmdQ = true → wellFormedWord s.cmdQ = false →
      step s = .next ((s.tick s.ports).respond ⟨1, 0x2⟩))

/-! ### The interface (10_state.md, 70_reset_and_hazards.md) -/

/-- R20, R39: in the cycle that completes a command, a step is `exec` of the command that `cmd_q` decodes to, at
the state whose cycle's inputs are used up. The second clause is the model's own choice (DESIGN CHOICE,
notes/assumptions/6): a command placed by `withFetchWord` is what the next step runs. -/
def Obligations.StepRunsTheDecodedCommand : Prop :=
  (∀ (s : State) (i : Instr), s.nextAction s.ports = .complete → decode s.cmdQ = .ok i →
    step s = exec i (s.tick s.ports)) ∧
  (∀ (s : State) (nbits w : Nat) (i : Instr), decodeTableWord nbits w = some i →
    ∃ t, step (s.withFetchWord nbits w) = exec i t ∧ t.inputs = s.inputs ∧ t.cmdQ = tableWord nbits w)

/-- R19: in a cycle with `rst = 0`, `cmd_valid = 1` and `busy = 0` the whole command word is sampled and the block
becomes busy, no other register changes, and while the block is busy no port but `rst` changes the sampled word.
An idle block shows no response (`Inv.valid_busy`). The premise on the hold is the host's duty R108 (a): the model
refuses a host that breaks it (notes/assumptions/3). -/
def Obligations.AcceptSamplesTheWholeCommand : Prop :=
  (∀ s : State, s.ports.rst = false → s.ports.cmdValid = true → s.busy = false → s.rspValid = false →
    s.holdBroken s.ports = false →
    ∃ t, step s = .next t ∧ t.busy = true ∧ t.cmdQ = s.ports.cmd ∧ t.rspValid = false ∧
      t.rspStatus = s.rspStatus ∧ t.rspData = s.rspData ∧ t.delivered = s.delivered) ∧
  (∀ s t : State, s.ports.rst = false → s.busy = true → step s = .next t → t.cmdQ = s.cmdQ)

/-- R20, R33: while a command is computed the registers stay; in the cycle that completes it the response becomes
valid whole, and it is what `Execute` gives for the sampled word. -/
def Obligations.CompleteWritesWhatExecuteGives : Prop :=
  ∀ s : State, s.ports.rst = false → s.holdBroken s.ports = false → s.busy = true → s.rspValid = false →
    ∃ t, step s = .next t ∧ t.busy = true ∧ t.cmdQ = s.cmdQ ∧ t.delivered = s.delivered ∧
      (s.wait ≠ 0 → t.rspValid = false ∧ t.wait = s.wait - 1 ∧ t.rspStatus = s.rspStatus ∧ t.rspData = s.rspData) ∧
      (s.wait = 0 → t.rspValid = true ∧ t.rspStatus = (execute s.cmdQ).status ∧
        t.rspData = (execute s.cmdQ).data)

/-- R21: in a cycle with `rst = 0`, `rsp_valid = 1` and `rsp_ready = 1` the host takes the response, the block is
idle again, the response registers keep their values, and no command is accepted in that cycle. -/
def Obligations.DeliverGivesTheResponseAndFreesTheBlock : Prop :=
  ∀ s : State, s.ports.rst = false → s.holdBroken s.ports = false → s.busy = true → s.rspValid = true →
    s.ports.rspReady = true →
    s.cmdReady s.ports = false ∧
    ∃ t, step s = .next t ∧ t.rspValid = false ∧ t.busy = false ∧ t.rspStatus = s.rspStatus ∧
      t.rspData = s.rspData ∧ t.cmdQ = s.cmdQ ∧
      t.delivered = ⟨s.cmdQ, s.rspStatus, s.rspData⟩ :: s.delivered

/-- R17, R21: a valid response that is not taken, and an idle block that shows no response (`Inv.valid_busy`) and is
offered nothing, keep every register. -/
def Obligations.RegistersWaitForTheHost : Prop :=
  ∀ s : State, s.ports.rst = false → s.holdBroken s.ports = false →
    (s.busy = false ∧ s.rspValid = false ∧ s.ports.cmdValid = false) ∨
      (s.busy = true ∧ s.rspValid = true ∧ s.ports.rspReady = false) →
    ∃ t, step s = .next t ∧ t.busy = s.busy ∧ t.cmdQ = s.cmdQ ∧ t.rspValid = s.rspValid ∧
      t.rspStatus = s.rspStatus ∧ t.rspData = s.rspData ∧ t.wait = s.wait ∧ t.accepts = s.accepts ∧
      t.delivered = s.delivered

/-- R17, R105, R106: a cycle with `rst = 1` clears every register, accepts and delivers nothing and shows
`cmd_ready = 0`; in a following cycle with `rst = 0` the block is ready and accepts the command it is offered. -/
def Obligations.ResetClearsEveryRegister : Prop :=
  ∀ s : State, s.ports.rst = true →
    s.outputs.cmdReady = false ∧
    ∃ t, step s = .next t ∧ t.busy = false ∧ t.cmdQ = 0 ∧ t.rspValid = false ∧ t.rspStatus = 0 ∧ t.rspData = 0 ∧
      t.accepts = s.accepts ∧ t.delivered = s.delivered ∧
      (t.ports.rst = false → t.outputs.cmdReady = true ∧
        (t.ports.cmdValid = true → t.holdBroken t.ports = false →
          ∃ u, step t = .next u ∧ u.busy = true ∧ u.cmdQ = t.ports.cmd))

/-- R17, R105: right after reset every register holds the value the spec lists. -/
def Obligations.ResetStateIsTheListedOne : Prop :=
  State.reset.busy = false ∧ State.reset.cmdQ = 0 ∧ State.reset.rspValid = false ∧ State.reset.rspStatus = 0 ∧
    State.reset.rspData = 0

/-- R99, R105, R108 (a), I18: a step never faults, and it is refused exactly when, outside reset, the host changes or
drops a command it has offered before the command is accepted. That a cycle with `rst = 1` is never refused,
whatever the host held, is the model's choice (DESIGN CHOICE, notes/assumptions/3). -/
def Obligations.StepStopsOnlyForAnUnheldCommand : Prop :=
  ∀ s : State, (∀ f, step s ≠ .fault f) ∧
    ∀ r, step s = .refused r ↔
      r = .commandNotHeld ∧ s.ports.rst = false ∧
        ∃ c, s.offered = some c ∧ ¬(s.ports.cmdValid = true ∧ s.ports.cmd = c)

/-- R17: the reset state meets the interface invariant. -/
def Obligations.InterfaceInvariantHoldsAtReset : Prop := Inv State.reset

/-- R14, R17 to R22, R34: every step, from every state that meets the interface invariant, whatever is on the
ports, keeps it: a valid response is `Execute` of the command in progress, and every response the host has taken
is `Execute` of its own command, so no command influences the response to another. -/
def Obligations.InterfaceInvariantIsKeptByEveryStep : Prop :=
  ∀ s t : State, Inv s → step s = .next t → Inv t

/-- R16, R19 to R22, R34, R110: a program, a list of commands that the host issues in order, each offered, computed
for `LATENCY` cycles (whatever it is for that command) and taken, leaves exactly the state of the
transaction-level model, one atomic step per command, and the responses are delivered in order. The comparison takes
in `rsp_status` and `rsp_data` while `rsp_valid = 0`, which keep their values by notes/assumptions/10 (DEDUCED). -/
def Obligations.ProgramsRunAsAtomicTransactions : Prop :=
  ∀ (cs : List Command) (s : State) (rest : List Ports), Ready s →
    s.inputs = programInputs s.accepts cs ++ rest →
    Host.Core.run Sys2Proof.core (programInputs s.accepts cs).length s =
      .next { cs.foldl transact s with inputs := rest } ∧
    (cs.foldl transact s).delivered = (cs.map deliveryOf).reverse ++ s.delivered

/-- R14, R20: the response to a command depends on the command word alone: two blocks in whatever states, each
completing the same word, write the same response. -/
def Obligations.ResponseDependsOnTheCommandAlone : Prop :=
  ∀ s₁ s₂ t₁ t₂ : State, s₁.nextAction s₁.ports = .complete → s₂.nextAction s₂.ports = .complete →
    s₁.cmdQ = s₂.cmdQ → step s₁ = .next t₁ → step s₂ = .next t₂ →
    t₁.rspStatus = t₂.rspStatus ∧ t₁.rspData = t₂.rspData ∧ t₁.rspValid = t₂.rspValid

/-! ### Responses and errors (30_encoding.md R49, 60_exceptions.md) -/

/-- R15, R18, R25, R99: a command of any kind, whatever its operands and the state, ends in a next state, and it
writes the three response registers and nothing else; an error's whole entry is the same write. -/
def Obligations.CommandsWriteOnlyTheResponse : Prop :=
  ∀ (i : Instr) (s : State), ∃ t, exec i s = .next t ∧ t.rspValid = true ∧ t.busy = s.busy ∧ t.cmdQ = s.cmdQ ∧
    t.wait = s.wait ∧ t.accepts = s.accepts ∧ t.inputs = s.inputs ∧ t.offered = s.offered ∧
    t.delivered = s.delivered

/-- R39: `Execute` of a word that decodes is what `exec` of the decoded command writes. -/
def Obligations.CommandsAnswerWhatExecuteGives : Prop :=
  ∀ (c : Command) (i : Instr) (s : State), decode c = .ok i → exec i s = .next (s.respond (execute c))

/-- R92, R93, R94, I17, under any parameters: the status is 0 to 3, and where it is not OK the data is a field id
from 1 to 7 in `[7:0]`, an index of at most 7 in `[11:8]` that is 0 but for `FIELD_CSCHAR`, and zeros. -/
def Obligations.ErrorDetailNamesTheField : Prop :=
  ∀ (p : Params) (c : Command),
    (executeWith p c).status.toNat ≤ 3 ∧
    ((executeWith p c).status ≠ 0 →
      1 ≤ ((executeWith p c).data.extractLsb' 0 8).toNat ∧ ((executeWith p c).data.extractLsb' 0 8).toNat ≤ 7 ∧
      ((executeWith p c).data.extractLsb' 8 4).toNat ≤ 7 ∧
      ((executeWith p c).data.extractLsb' 0 8 ≠ 4 → (executeWith p c).data.extractLsb' 8 4 = 0) ∧
      (executeWith p c).data.extractLsb' 12 100 = 0)

/-- R95, under any parameters: a command that ends in an error ends in one the cause table lists for it; `parity`,
`syndrome` and `frame` never do. -/
def Obligations.ErrorsAreThoseOfTheCauseTable : Prop :=
  ∀ (p : Params) (i : Instr) (e : CommandError), commandResult p i = .error e → errorAllowed i e

/-- R49, under any parameters: the data of an OK response lies in the bits listed for the operation, and every
other bit is 0; the zone count is 1 to 59, and altitude kind 3 is never produced. -/
def Obligations.OkDataFillsOnlyItsField : Prop :=
  ∀ (p : Params) (i : Instr) (d : Data), commandResult p i = .ok d →
    match i with
    | .parity _ | .syndrome _ => d.toNat < 2 ^ 24
    | .nl _ => 1 ≤ d.toNat ∧ d.toNat ≤ 59
    | .cpr _ _ _ => d.toNat < 2 ^ 34
    | .alt _ _ => d.toNat < 3 * 2 ^ 12
    | .frame _ _ _ | .ident _ _ _ _ _ _ | .pos _ _ _ _ _ _ _ _ _ _ _ => d.extractLsb' 107 5 = 17

/-! ### The CRC unit (40_crc24.md) -/

/-- R62, R63: `parity` and `syndrome` of any frame, in any state, answer OK with the 24-bit value at the low end. -/
def Obligations.ParityAndSyndromeAnswerTheCrc : Prop :=
  ∀ (m : Frame) (s : State),
    exec (.parity m) s = .next (s.respond ⟨0, BitVec.ofNat 112 (crc24 m true).toNat⟩) ∧
    exec (.syndrome m) s = .next (s.respond ⟨0, BitVec.ofNat 112 (crc24 m false).toNat⟩)

/-- R59: the four XORs of R58 for bit `b` of byte `i` are one XOR of `G32 >> b` into the window of bytes `i` to
`i + 3`, taken when the tested bit is 1; and that bit is 0 afterwards. -/
def Obligations.CrcStepXorsOneWindow : Prop :=
  ∀ (bs : List Byte) (i b : Nat), bs.length = 14 → i < 11 → b < 8 →
    frameOfBytes (crcBit i bs b) =
      (if (frameOfBytes bs).getLsbD (111 - 8 * i - b)
        then frameOfBytes bs ^^^ (((generatorWord >>> b).setWidth 112) <<< (80 - 8 * i))
        else frameOfBytes bs) ∧
    (frameOfBytes (crcBit i bs b)).getLsbD (111 - 8 * i - b) = false

/-- R59: after the loop the first 11 bytes are zero. -/
def Obligations.CrcLoopClearsTheHeader : Prop :=
  ∀ m : Frame, (crcBytes m).length = 14 ∧ (crcBytes m).take 11 = List.replicate 11 0

/-- R59: the byte-wise procedure computes division by `P(x)`: in syndrome mode the frame is a multiple of `P` plus
the 24-bit result, and in parity mode the same holds of the header times `x^24`. The result has degree below 24, so
it is the remainder. -/
def Obligations.CrcIsThePolynomialRemainder : Prop :=
  ∀ m : Frame,
    (∃ q : BitVec 88, m = clmul q generatorPoly ^^^ (crc24 m false).setWidth 112) ∧
    (∃ q : BitVec 88, m.extractLsb' 24 88 ++ 0#24 = clmul q generatorPoly ^^^ (crc24 m true).setWidth 112)

/-- R60: the laws of `CRC24`: (a) linear over XOR, (b) zero at zero, (c) parity mode does not read the last 24
bits, (d) a frame of parity bits alone, (e) the two modes differ by the last 24 bits. -/
def Obligations.CrcLawsHold : Prop :=
  (∀ (m₁ m₂ : Frame) (e : Bool), crc24 (m₁ ^^^ m₂) e = crc24 m₁ e ^^^ crc24 m₂ e) ∧
  (∀ e : Bool, crc24 0 e = 0) ∧
  (∀ m₁ m₂ : Frame, m₁.extractLsb' 24 88 = m₂.extractLsb' 24 88 → crc24 m₁ true = crc24 m₂ true) ∧
  (∀ m : Frame, m.extractLsb' 24 88 = 0 → crc24 m false = m.extractLsb' 0 24 ∧ crc24 m true = 0) ∧
  (∀ m : Frame, crc24 m false = crc24 m true ^^^ m.extractLsb' 0 24)

/-- R61: a header followed by its parity has syndrome 0. -/
def Obligations.SyndromeOfAParityFrameIsZero : Prop :=
  ∀ h : BitVec 88, crc24 (h ++ crc24 (h ++ 0#24) true) false = 0

/-! ### The CPR unit (41_cpr.md) -/

/-- R66, R70, R96: `nl` of a finite latitude of at most 90 degrees answers OK with its zone count, and of any other
pattern RANGE with `FIELD_LAT`. -/
def Obligations.NlAnswersTheZoneCount : Prop :=
  ∀ (lat : Binary64) (s : State),
    (latValid lat → exec (.nl lat) s = .next (s.respond ⟨0, BitVec.ofNat 112 (zoneCount (val64 lat))⟩)) ∧
    (¬ latValid lat → exec (.nl lat) s = .next (s.respond ⟨3, 0x6⟩))

/-- R65: the thresholds fall strictly as `n` rises, so the zone count is one more than the number of thresholds the
latitude does not exceed; it is never below 1 or above 59, it is even, and it falls with the distance from the
equator. -/
def Obligations.ZoneCountCountsTheThresholds : Prop :=
  (nlTable.map fun e => val64 e.2).Pairwise (fun a b => b < a) ∧
  (∀ q : Rat, zoneCount q = (nlTable.filter fun e => |q| ≤ val64 e.2).length + 1) ∧
  (∀ q : Rat, 1 ≤ zoneCount q ∧ zoneCount q ≤ 59 ∧ zoneCount (-q) = zoneCount q) ∧
  (∀ q r : Rat, |q| ≤ |r| → zoneCount r ≤ zoneCount q)

/-- R64: the special cases of the formula hold of the table: 59 within 1e-6 of the equator, 2 at 87 degrees, 1
beyond, and 2 to 59 in between. -/
def Obligations.ZoneCountSpecialCases : Prop :=
  ∀ q : Rat, (|q| < 1 / 1000000 → zoneCount q = 59) ∧ (|q| = 87 → zoneCount q = 2) ∧
    (87 < |q| → zoneCount q = 1) ∧ (|q| ≤ 87 → 2 ≤ zoneCount q ∧ zoneCount q ≤ 59)

/-- R66, R71, R96, R97: `cpr` checks the latitude, then the longitude, and of two valid operands answers OK with
the two codes at `data[33:17]` and `data[16:0]`. -/
def Obligations.CprAnswersBothCodes : Prop :=
  ∀ (odd : Bool) (lat lon : Binary64) (s : State),
    (latValid lat → lonValid lon → exec (.cpr odd lat lon) s = .next (s.respond ⟨0, BitVec.ofNat 112
      ((cprLat params (val64 lat) odd).toNat * 2 ^ 17 + (cprLon params (val64 lat) (val64 lon) odd).toNat)⟩)) ∧
    (¬ latValid lat → exec (.cpr odd lat lon) s = .next (s.respond ⟨3, 0x6⟩)) ∧
    (latValid lat → ¬ lonValid lon → exec (.cpr odd lat lon) s = .next (s.respond ⟨3, 0x7⟩))

/-- R67, R68 under `ARITH = EXACT`: for any number of zones the residual lies in one zone, the fraction of the zone
is the fractional part of `x * Z / 360`, and the scaled value is 0 to 2^17. -/
def Obligations.ExactResidualIsTheFractionOfAZone : Prop :=
  ∀ (p : Params) (x : Rat) (z : Nat), p.arith = .exact → 0 < z →
    0 ≤ zoneResidual p x (zoneSize p z) ∧ zoneResidual p x (zoneSize p z) < zoneSize p z ∧
    zoneResidual p x (zoneSize p z) / zoneSize p z = Int.fract (x * z / 360) ∧
    0 ≤ scaledResidual p x (zoneSize p z) ∧ scaledResidual p x (zoneSize p z) ≤ 2 ^ 17

/-- R69, under any parameters, `ARITH = BINARY64` above all: for every coordinate up to 180 degrees and every zone
count the block uses, the rounded value is 0 to 131072, so the lower bound of `Sat17` never changes a value and the
upper one only the value 131072. -/
def Obligations.ScaledResidualFitsSeventeenBitsAndOne : Prop :=
  ∀ (p : Params) (x : Rat) (z : Nat), |x| ≤ 180 → 1 ≤ z → z ≤ 60 →
    0 ≤ scaledResidual p x (zoneSize p z) ∧ scaledResidual p x (zoneSize p z) ≤ 131072

/-- R69: `Sat17` clamps under `CLAMP` and reduces modulo 2^17 under `WRAP`. -/
def Obligations.SaturationClampsOrWraps : Prop :=
  ∀ y : Int, ((sat17 .clamp y).toNat : Int) = max 0 (min y 131071) ∧ ((sat17 .wrap y).toNat : Int) = y % 2 ^ 17

/-- R67, R68: the zones of each frame: 60 even and 59 odd for latitude, `max(n, 1)` even and `max(n - 1, 1)` odd for
longitude, where `n` is the zone count of the input latitude (`NL_INPUT = RAW`), and the codes of this block. -/
def Obligations.CprCodesUseTheFramesZones : Prop :=
  ∀ (lat lon : Rat),
    cprLat params lat false = sat17 .clamp (scaledResidual params lat (zoneSize params 60)) ∧
    cprLat params lat true = sat17 .clamp (scaledResidual params lat (zoneSize params 59)) ∧
    cprLon params lat lon false = sat17 .clamp (scaledResidual params lon (zoneSize params (zoneCount lat))) ∧
    cprLon params lat lon true =
      sat17 .clamp (scaledResidual params lon (zoneSize params (max (zoneCount lat - 1) 1)))

/-! ### The altitude unit (42_altitude.md) -/

/-- R72, R73: in both `ARITH` modes the feet are negative exactly when the metres are. -/
def Obligations.FeetKeepTheSignOfMetres : Prop :=
  ∀ (a : Arith) (f : Binary64), isFinite64 f = true → ((feet a (val64 f)).lt 0 = true ↔ val64 f < 0)

/-- R73, R75, R81, R96: the GNSS encoding: RANGE for a non-finite altitude, VALIDATION below 0, RANGE above 4095
after rounding (ties to even), and otherwise kind 0 with the rounded metres. -/
def Obligations.GnssAltitudeIsRoundedMetres : Prop :=
  ∀ (f : Binary64) (s : State),
    (isFinite64 f = false → exec (.alt true f) s = .next (s.respond ⟨3, 0x5⟩)) ∧
    (isFinite64 f = true → val64 f < 0 → exec (.alt true f) s = .next (s.respond ⟨2, 0x5⟩)) ∧
    (isFinite64 f = true → 0 ≤ val64 f → 4095 < roundInt .even (val64 f) →
      exec (.alt true f) s = .next (s.respond ⟨3, 0x5⟩)) ∧
    (isFinite64 f = true → 0 ≤ val64 f → roundInt .even (val64 f) ≤ 4095 →
      exec (.alt true f) s = .next (s.respond ⟨0, BitVec.ofNat 112 (roundInt .even (val64 f)).toNat⟩))

/-- R73, R74, R76, R78, R81, R96: the barometric encoding: RANGE for a non-finite altitude, VALIDATION below 0,
kind 1 with the Q1 code below 50175 ft, kind 2 with the Q0 code from there to below 126700 ft, and RANGE above,
`+∞` included. -/
def Obligations.BarometricAltitudeIsChosenByFeet : Prop :=
  ∀ (f : Binary64) (s : State),
    (isFinite64 f = false → exec (.alt false f) s = .next (s.respond ⟨3, 0x5⟩)) ∧
    (isFinite64 f = true → val64 f < 0 → exec (.alt false f) s = .next (s.respond ⟨2, 0x5⟩)) ∧
    (isFinite64 f = true → 0 ≤ val64 f → feet .binary64 (val64 f) = .posInf →
      exec (.alt false f) s = .next (s.respond ⟨3, 0x5⟩)) ∧
    (∀ ft : Rat, isFinite64 f = true → 0 ≤ val64 f → feet .binary64 (val64 f) = .fin ft →
      (ft < 50175 → exec (.alt false f) s = .next (s.respond ⟨0, BitVec.ofNat 112
        (2 ^ 12 + (q1Code (BitVec.ofInt 11 (q1Count .binary64 ft))).toNat)⟩)) ∧
      (50175 ≤ ft → ft < 126700 → exec (.alt false f) s = .next (s.respond ⟨0, BitVec.ofNat 112
        (2 * 2 ^ 12 + (q0Code params (fl .binary64 (ft + 1300))).toNat)⟩)) ∧
      (126700 ≤ ft → exec (.alt false f) s = .next (s.respond ⟨3, 0x5⟩)))

/-- R76: in both `ARITH` modes, a number of feet from 0 to below 50175 gives a count of 40 to 2046: any rational number
under `EXACT`, any binary64 value under `BINARY64`. -/
def Obligations.Q1CountFitsElevenBits : Prop :=
  ∀ (a : Arith) (ft : Rat), feetValue a ft → 0 ≤ ft → ft < 50175 → 40 ≤ q1Count a ft ∧ q1Count a ft ≤ 2046

/-- R76: the Q1 code of a count: its high six bits, the Q indicator 1 at `code[5]`, and its low five bits. -/
def Obligations.Q1CodeHoldsTheCountAroundTheQBit : Prop :=
  ∀ n : BitVec 11, (q1Code n).toNat = (n.toNat / 32) * 64 + 32 + n.toNat % 32 ∧ (q1Code n).getLsbD 5 = true

/-- R77: `gray(n) = n ^ (n >> 1)`; for consecutive integers it differs in exactly one bit; and it is as wide as its
counter: 8 bits for a 500-ft count that fits 8 bits, 3 bits for a 100-ft count of at most 4. -/
def Obligations.GrayCodesOfConsecutiveIntegersDifferInOneBit : Prop :=
  ∀ n : Nat, gray n = n ^^^ (n >>> 1) ∧ (∃ k, gray n ^^^ gray (n + 1) = 2 ^ k) ∧ (n < 256 → gray n < 256) ∧
    (n ≤ 4 → gray n < 8)

/-- R78: in both `ARITH` modes, for a number of feet of at least 50175 (any rational number under `EXACT`, any binary64
value under `BINARY64`): RANGE exactly from 126700 ft on; below it the 500-ft count is 102 to 255 and the 100-ft count
at most 4. -/
def Obligations.Q0CountersStayInRange : Prop :=
  ∀ (p : Params) (ft : Rat), feetValue p.arith ft → 50175 ≤ ft →
    (altQ0 p (.fin ft) = raise .range .alt 0 ↔ 126700 ≤ ft) ∧
    (ft < 126700 →
      102 ≤ count500 (fl p.arith (ft + 1300)) ∧ count500 (fl p.arith (ft + 1300)) ≤ 255 ∧
      count100 (fl p.arith (ft + 1300)) ≤ 4)

/-- R79: this block's interleave is the concatenation of the mapping table, with the constant 0 at `code[4]`. The
table is the spec's decision D12. -/
def Obligations.Q0InterleaveIsTheMappingTable : Prop :=
  ∀ (g500 : BitVec 8) (g100 : BitVec 3), interleave params.q0Map g500 g100 =
    g100.extractLsb' 2 1 ++ g500.extractLsb' 5 1 ++ g100.extractLsb' 1 1 ++ g500.extractLsb' 4 1 ++
      g100.extractLsb' 0 1 ++ g500.extractLsb' 3 1 ++ g500.extractLsb' 2 1 ++ 0#1 ++ g500.extractLsb' 1 1 ++
      g500.extractLsb' 7 1 ++ g500.extractLsb' 0 1 ++ g500.extractLsb' 6 1

/-- R8, R79: under every `Q0_MAP` that is a permutation, `code[4]` is 0 and no two pairs of Gray codes share a code. -/
def Obligations.EveryQ0MapKeepsAllGrayBits : Prop :=
  ∀ p : Params, p.wellFormed = true →
    (∀ (g : BitVec 8) (h : BitVec 3), (interleave p.q0Map g h).getLsbD 4 = false) ∧
    (∀ (g₁ g₂ : BitVec 8) (h₁ h₂ : BitVec 3),
      interleave p.q0Map g₁ h₁ = interleave p.q0Map g₂ h₂ → g₁ = g₂ ∧ h₁ = h₂)

/-! ### The assembler (43_assembler.md) -/

/-- R82, R83: the first 88 bits of a frame are DF 17, CA, ICAO and ME, its first byte is `(17 << 3) | ca`, and the
parity that follows is the encode-mode `CRC24` of those 88 bits with a zero trailer. -/
def Obligations.BuildFrameAppendsTheParityOfItsHeader : Prop :=
  ∀ (ca : BitVec 3) (icao : BitVec 24) (me : MsgElem),
    (buildFrame ca icao me).extractLsb' 24 88 = 17#5 ++ ca ++ icao ++ me ∧
    (buildFrame ca icao me).extractLsb' 104 8 = (17#8 <<< 3) ||| ca.setWidth 8 ∧
    buildFrame ca icao me =
      (17#5 ++ ca ++ icao ++ me) ++ crc24 ((17#5 ++ ca ++ icao ++ me : BitVec 88) ++ 0#24) true

/-- R83, R88: `frame` of any operands answers OK with DF 17, CA, ICAO, the ME as given and the parity. -/
def Obligations.FrameAnswersTheAssembledFrame : Prop :=
  ∀ (ca : BitVec 3) (icao : BitVec 24) (me : MsgElem) (s : State),
    exec (.frame ca icao me) s = .next (s.respond ⟨0,
      17#5 ++ ca ++ icao ++ me ++ crc24 (17#5 ++ ca ++ icao ++ me ++ 0#24) true⟩)

/-- R84, R85, R89, R97: `ident` of a callsign whose given characters are all in the alphabet answers OK with the
frame of its ME; a length above 8 is RANGE with `FIELD_CSLEN`; otherwise the lowest invalid character is reported
as VALIDATION with `FIELD_CSCHAR` and its index. -/
def Obligations.IdentAnswersTheIdentificationFrame : Prop :=
  ∀ (ca : BitVec 3) (icao : BitVec 24) (tc : BitVec 5) (ec : BitVec 3) (cslen : BitVec 4) (cs : BitVec 64)
    (s : State),
    (callsignValid cslen cs → exec (.ident ca icao tc ec cslen cs) s = .next (s.respond ⟨0, buildFrame ca icao
      (tc ++ ec ++ callsignCode cslen cs 0 ++ callsignCode cslen cs 1 ++ callsignCode cslen cs 2 ++
        callsignCode cslen cs 3 ++ callsignCode cslen cs 4 ++ callsignCode cslen cs 5 ++ callsignCode cslen cs 6 ++
        callsignCode cslen cs 7)⟩)) ∧
    (8 < cslen.toNat → exec (.ident ca icao tc ec cslen cs) s = .next (s.respond ⟨3, 0x3⟩)) ∧
    (∀ i < cslen.toNat, cslen.toNat ≤ 8 → charCode (csByte cs i) = none →
      (∀ j < i, charCode (csByte cs j) ≠ none) →
      exec (.ident ca icao tc ec cslen cs) s = .next (s.respond ⟨2, BitVec.ofNat 112 (i * 256 + 4)⟩))

/-- R46, R85, I15: the bytes past the given length are neither checked nor encoded. -/
def Obligations.CallsignBytesPastTheLengthAreIgnored : Prop :=
  ∀ (ca : BitVec 3) (icao : BitVec 24) (tc : BitVec 5) (ec : BitVec 3) (cslen : BitVec 4) (cs₁ cs₂ : BitVec 64)
    (s : State), (∀ i < cslen.toNat, i < 8 → csByte cs₁ i = csByte cs₂ i) →
    exec (.ident ca icao tc ec cslen cs₁) s = exec (.ident ca icao tc ec cslen cs₂) s

/-- R84: a character has a code exactly when it is a space, a capital letter or a digit, and the code is 32, the
position in the alphabet, or the character itself. -/
def Obligations.CallsignAlphabetIsSpaceLettersDigits : Prop :=
  ∀ (ch : Byte) (k : BitVec 6), charCode ch = some k ↔
    (ch.toNat = 0x20 ∧ k.toNat = 32) ∨
    (0x41 ≤ ch.toNat ∧ ch.toNat ≤ 0x5A ∧ k.toNat = ch.toNat - 0x40) ∨
    (0x30 ≤ ch.toNat ∧ ch.toNat ≤ 0x39 ∧ k.toNat = ch.toNat)

/-- R87, R90, R96, R97: `pos` reports the altitude's error first, then the latitude's, then the longitude's, and of
valid operands answers OK with the frame of the airborne-position ME. -/
def Obligations.PosAnswersThePositionFrame : Prop :=
  ∀ (ca : BitVec 3) (icao : BitVec 24) (tc : BitVec 5) (ss : BitVec 2) (saf gnss t odd : Bool)
    (alt lat lon : Binary64) (s : State),
    (∀ e, altEncode params alt gnss = .error e →
      exec (.pos ca icao tc ss saf gnss t odd alt lat lon) s =
        .next (s.respond ⟨statusCode e.status, errorDetail e⟩)) ∧
    (∀ kind code, altEncode params alt gnss = .ok (kind, code) →
      (latValid lat → lonValid lon → exec (.pos ca icao tc ss saf gnss t odd alt lat lon) s =
        .next (s.respond ⟨0, buildFrame ca icao (tc ++ ss ++ BitVec.ofBool saf ++ code ++ BitVec.ofBool t ++
          BitVec.ofBool odd ++ cprLat params (val64 lat) odd ++ cprLon params (val64 lat) (val64 lon) odd)⟩)) ∧
      (¬ latValid lat → exec (.pos ca icao tc ss saf gnss t odd alt lat lon) s = .next (s.respond ⟨3, 0x6⟩)) ∧
      (latValid lat → ¬ lonValid lon →
        exec (.pos ca icao tc ss saf gnss t odd alt lat lon) s = .next (s.respond ⟨3, 0x7⟩)))

/-- R71, R81, R87, R88, R90: a position frame is the `frame` of the ME put together from the data of `alt` and of
`cpr`, bit for bit, under any parameters. -/
def Obligations.PosIsTheFrameOfItsParts : Prop :=
  ∀ (p : Params) (ca : BitVec 3) (icao : BitVec 24) (tc : BitVec 5) (ss : BitVec 2) (saf gnss t odd : Bool)
    (alt lat lon : Binary64) (da dc : Data),
    commandResult p (.alt gnss alt) = .ok da → commandResult p (.cpr odd lat lon) = .ok dc →
    commandResult p (.pos ca icao tc ss saf gnss t odd alt lat lon) =
      commandResult p (.frame ca icao (tc ++ ss ++ BitVec.ofBool saf ++ da.extractLsb' 0 12 ++ BitVec.ofBool t ++
        BitVec.ofBool odd ++ dc.extractLsb' 0 34))

/-- R91: under any parameters, every OK response of `frame`, `ident` and `pos` begins with the byte `0x88 | ca`, then
holds the ICAO address, has syndrome 0, and renders as exactly 28 uppercase hex digits, of which digits 2 to 7 are
the address's. -/
def Obligations.ProducedFramesKeepTheGuarantees : Prop :=
  ∀ (p : Params) (i : Instr) (m : Data) (ca : BitVec 3) (icao : BitVec 24),
    producesFrame i = true → addressOf i = some (ca, icao) → commandResult p i = .ok m →
    m.extractLsb' 104 8 = 0x88 ||| ca.setWidth 8 ∧ m.extractLsb' 80 24 = icao ∧ crc24 m false = 0 ∧
    (renderFrame m).length = 28 ∧ (∀ c ∈ renderFrame m, c ∈ "0123456789ABCDEF".toList) ∧
    (∀ k < 6, frameNibble m (2 + k) = icao.extractLsb' (20 - 4 * k) 4)

/-! ### Written forms (30_encoding.md R53, R55) -/

/-- R30, R53, R55: the hexadecimal rendering of a frame, read as an assembler operand, is the frame again. -/
def Obligations.RenderedFramesReadBack : Prop := ∀ m : Frame, hexField 28 112 (renderFrame m) = some m

/-- R55, R56: one line of each mnemonic, with every operand of its form, stands for the word beside it. The words are
those of 95_test_vectors.md, whose own lines these are but for a comment added after ALT25's line and CRC16's word
written out after `.cmd`. -/
def Obligations.AssemblerLinesStandForTheirWords : Prop :=
  assembleLine "parity 8D4840D6202CC371C32CE0576098" =
    some 0x1000000000000000000000000000000000008D4840D6202CC371C32CE0576098 ∧
  assembleLine "syndrome 8D4840D6202CC371C32CE0576099" =
    some 0x2000000000000000000000000000000000008D4840D6202CC371C32CE0576099 ∧
  assembleLine "verify 8D4840D6202CC371C32CE0576099" =
    some 0x2000000000000000000000000000000000008D4840D6202CC371C32CE0576099 ∧
  assembleLine "nl 0" =
    some 0x3000000000000000000000000000000000000000000000000000000000000000 ∧
  assembleLine "cpr.e f64:3EF8000000000000, 0" =
    some 0x400000000000000000000000000000003EF80000000000000000000000000000 ∧
  assembleLine "cpr.o -1e-6, -1e-6" =
    some 0x40000000000000000000000000000001BEB0C6F7A0B5ED8DBEB0C6F7A0B5ED8D ∧
  assembleLine "alt.baro 11582.4" =
    some 0x50000000000000000000000000000000000000000000000040C69F3333333333 ∧
  assembleLine "alt.gnss 1234.4 ; metres" =
    some 0x500000000000000000000000000000000000000000000001409349999999999A ∧
  assembleLine "frame ca=5, icao=4840D6, me=202CC371C32CE0" =
    some 0x600000000000000000000000000000000000000000054840D6202CC371C32CE0 ∧
  assembleLine "ident ca=5, icao=4840D6, tc=4, ec=0, cs=\"KL204\"" =
    some 0x700000000000000000000000000000000000054840D620054B4C323034000000 ∧
  assembleLine "pos.e ca=5, icao=40621D, tc=20, ss=0, saf=0, t=1, gnss=1234.4, lat=52.2572, lon=3.91937" =
    some 0x8000002A0310ED06409349999999999A404A20EBEDFA43FE400F5ADEA897635E ∧
  assembleLine "pos.o ca=2, icao=123456, tc=9, ss=3, saf=1, t=1, baro=304.8, lat=-33.8688, lon=151.2093" =
    some 0x8000001091A2B27B40730CCCCCCCCCCDC040EF34D6A161E54062E6B295E9E1B1 ∧
  assembleLine ".cmd 1000000000000000000000000000000000018D4840D6202CC371C32CE0576098" =
    some 0x1000000000000000000000000000000000018D4840D6202CC371C32CE0576098

/-! ### Arithmetic (00_scope.md R12) -/

/-- R12: up to the magnitude that overflows the rounding is to the nearest binary64 value: there is a finite pattern for
the rounded value, no finite pattern is nearer, and at a tie the pattern's last fraction bit is 0. -/
def Obligations.RoundingIsToNearestTiesToEven : Prop :=
  ∀ q : Rat, |q| < overflowMagnitude → ∃ b : Binary64, isFinite64 b = true ∧ val64 b = round64 q ∧
    ∀ b' : Binary64, isFinite64 b' = true →
      |q - val64 b| ≤ |q - val64 b'| ∧
      (|q - val64 b| = |q - val64 b'| → val64 b' ≠ val64 b → b.getLsbD 0 = false)

/-- R12: `round(x)` is an integer at most a half away, the even one at a tie under `EVEN`, and `floor(x + 1/2)`
under `UP`. -/
def Obligations.RoundGivesTheNearestInteger : Prop :=
  ∀ x : Rat, (∀ tie, |x - roundInt tie x| ≤ 1 / 2) ∧ roundInt .up x = ⌊x + 1 / 2⌋ ∧
    (Int.fract x = 1 / 2 → roundInt .even x % 2 = 0)

/-- R12, R72: a rounding overflows from the magnitude half a spacing above the greatest binary64 value on, and only
there. So the feet are `+∞` exactly for altitudes of at least that magnitude times the binary64 constant 0.3048 (about
5.5e307 m), the rounded quotient below it, and the exact quotient by 381/1250, never an infinity, under `EXACT`. That
a negative altitude overflows to `-∞` is the model's inference (DEDUCED, notes/assumptions/7). -/
def Obligations.OnlyHugeAltitudesOverflowToInfinity : Prop :=
  (∀ q : Rat, flNum .exact q = .fin q ∧
    (flNum .binary64 q = .posInf ↔ overflowMagnitude ≤ q) ∧
    (flNum .binary64 q = .negInf ↔ q ≤ -overflowMagnitude) ∧
    (|q| < overflowMagnitude → flNum .binary64 q = .fin (round64 q))) ∧
  (∀ m : Rat, feet .exact m = .fin (m / (381 / 1250)) ∧
    (feet .binary64 m = .posInf ↔ overflowMagnitude * val64 0x3FD381D7DBF487FD ≤ m) ∧
    (|m| < overflowMagnitude * val64 0x3FD381D7DBF487FD →
      feet .binary64 m = .fin (round64 (m / val64 0x3FD381D7DBF487FD))))
end

