-- ==== Sys2Proof/Laws/Arith.lean ====
section
/-! SUPPORT. What the arithmetic of R12 does, said once: powers of two, the binary exponent, rounding to an integer,
and rounding to binary64 (its error, its monotonicity, its fixed points). -/

namespace Sys2Proof.Machine

theorem pow2_eq_zpow (e : Int) : pow2 e = (2 : Rat) ^ e := by
  cases e with
  | ofNat n => simp [pow2]
  | negSucc n => simp [pow2, zpow_negSucc]

theorem pow2_pos (e : Int) : 0 < pow2 e := by
  rw [pow2_eq_zpow]; positivity

theorem pow2_add (a b : Int) : pow2 (a + b) = pow2 a * pow2 b := by
  simp only [pow2_eq_zpow]
  exact zpow_add₀ (by norm_num) a b

theorem pow2_le_pow2 {a b : Int} : pow2 a ≤ pow2 b ↔ a ≤ b := by
  simp only [pow2_eq_zpow]
  exact zpow_le_zpow_iff_right₀ (by norm_num)

theorem pow2_lt_pow2 {a b : Int} : pow2 a < pow2 b ↔ a < b := by
  simp only [pow2_eq_zpow]
  exact zpow_lt_zpow_iff_right₀ (by norm_num)

/-- A power of two with a non-negative exponent is an integer. -/
theorem pow2_eq_intCast {e : Int} (h : 0 ≤ e) : pow2 e = ((2 ^ e.toNat : Int) : Rat) := by
  rw [pow2_eq_zpow]
  conv_lhs => rw [← Int.toNat_of_nonneg h, zpow_natCast]
  push_cast
  rfl

/-- `floorLog2` brackets a positive number between two powers of two. -/
theorem floorLog2_spec {q : Rat} (hq : 0 < q) : pow2 (floorLog2 q) ≤ q ∧ q < pow2 (floorLog2 q + 1) := by
  have hn : 0 < q.num := Rat.num_pos.mpr hq
  have hn' : q.num.natAbs ≠ 0 := by omega
  have hd' : q.den ≠ 0 := q.den_nz
  have hqe : q = (q.num.natAbs : Rat) / (q.den : Rat) := by
    conv_lhs => rw [← Rat.num_div_den q]
    congr 1
    rw [← Int.cast_natCast, Int.natAbs_of_nonneg hn.le]
  have hdpos : (0 : Rat) < q.den := by exact_mod_cast Nat.pos_of_ne_zero hd'
  have n₁ : pow2 (Nat.log2 q.num.natAbs) ≤ (q.num.natAbs : Rat) := by
    rw [pow2_eq_zpow, zpow_natCast]; exact_mod_cast Nat.log2_self_le hn'
  have n₂ : (q.num.natAbs : Rat) < pow2 (Nat.log2 q.num.natAbs + 1) := by
    rw [pow2_eq_zpow]; exact_mod_cast Nat.lt_log2_self (n := q.num.natAbs)
  have d₁ : pow2 (Nat.log2 q.den) ≤ (q.den : Rat) := by
    rw [pow2_eq_zpow, zpow_natCast]; exact_mod_cast Nat.log2_self_le hd'
  have d₂ : (q.den : Rat) < pow2 (Nat.log2 q.den + 1) := by
    rw [pow2_eq_zpow]; exact_mod_cast Nat.lt_log2_self (n := q.den)
  set k : Int := (Nat.log2 q.num.natAbs : Int) - (Nat.log2 q.den : Int) with hk
  have up : q < pow2 (k + 1) := by
    rw [hqe, div_lt_iff₀ hdpos]
    calc (q.num.natAbs : Rat) < pow2 (Nat.log2 q.num.natAbs + 1) := n₂
      _ = pow2 (k + 1) * pow2 (Nat.log2 q.den) := by rw [← pow2_add]; congr 1; omega
      _ ≤ pow2 (k + 1) * q.den := mul_le_mul_of_nonneg_left d₁ (pow2_pos _).le
  have lo : pow2 (k - 1) ≤ q := by
    rw [hqe, le_div_iff₀ hdpos]
    calc pow2 (k - 1) * q.den ≤ pow2 (k - 1) * pow2 (Nat.log2 q.den + 1) :=
          mul_le_mul_of_nonneg_left d₂.le (pow2_pos _).le
      _ = pow2 (Nat.log2 q.num.natAbs) := by rw [← pow2_add]; congr 1; omega
      _ ≤ q.num.natAbs := n₁
  have hf : floorLog2 q = if pow2 k ≤ q then k else k - 1 := rfl
  rw [hf]
  split_ifs with h
  · exact ⟨h, up⟩
  · exact ⟨lo, by simpa using lt_of_not_ge h⟩

/-- The binary exponent of a positive number is the one whose powers bracket it. -/
theorem floorLog2_eq {q : Rat} {k : Int} (h₁ : pow2 k ≤ q) (h₂ : q < pow2 (k + 1)) : floorLog2 q = k := by
  have hs := floorLog2_spec (lt_of_lt_of_le (pow2_pos k) h₁)
  have a := pow2_lt_pow2.mp (lt_of_le_of_lt h₁ hs.2)
  have b := pow2_lt_pow2.mp (lt_of_le_of_lt hs.1 h₂)
  omega

theorem floorLog2_mono {q r : Rat} (hq : 0 < q) (h : q ≤ r) : floorLog2 q ≤ floorLog2 r := by
  have a := pow2_lt_pow2.mp (lt_of_le_of_lt ((floorLog2_spec hq).1.trans h) (floorLog2_spec (hq.trans_le h)).2)
  omega

/-- `round` answers the floor or the one above it, each only where it is nearest. -/
theorem roundInt_cases (tie : RoundTie) (x : Rat) :
    (roundInt tie x = ⌊x⌋ ∧ Int.fract x ≤ 1 / 2) ∨ (roundInt tie x = ⌊x⌋ + 1 ∧ 1 / 2 ≤ Int.fract x) := by
  have hr : roundInt tie x = if Int.fract x < 1 / 2 then ⌊x⌋ else if 1 / 2 < Int.fract x then ⌊x⌋ + 1
      else match tie with
        | .even => if ⌊x⌋ % 2 = 0 then ⌊x⌋ else ⌊x⌋ + 1
        | .up => ⌊x⌋ + 1 := rfl
  rw [hr]
  rcases lt_trichotomy (Int.fract x) (1 / 2) with h | h | h
  · exact .inl ⟨if_pos h, h.le⟩
  · rw [if_neg (by rw [h]; exact lt_irrefl _), if_neg (by rw [h]; exact lt_irrefl _)]
    cases tie
    · by_cases he : ⌊x⌋ % 2 = 0
      · exact .inl ⟨if_pos he, h.le⟩
      · exact .inr ⟨if_neg he, h.ge⟩
    · exact .inr ⟨rfl, h.ge⟩
  · exact .inr ⟨by rw [if_neg (not_lt.mpr h.le), if_pos h], h.le⟩

theorem roundInt_near (tie : RoundTie) (x : Rat) : (roundInt tie x : Rat) ≤ x + 1 / 2 ∧ x - 1 / 2 ≤ roundInt tie x := by
  have hx := Int.floor_add_fract x
  have h₀ := Int.fract_nonneg x
  have h₁ := Int.fract_lt_one x
  rcases roundInt_cases tie x with ⟨h, hf⟩ | ⟨h, hf⟩ <;> rw [h] <;> push_cast <;> constructor <;> linarith

theorem roundInt_intCast (tie : RoundTie) (n : Int) : roundInt tie (n : Rat) = n := by
  rcases roundInt_cases tie (n : Rat) with ⟨h, _⟩ | ⟨_, hf⟩
  · simpa using h
  · rw [Int.fract_intCast] at hf; norm_num at hf

theorem roundInt_mono (tie : RoundTie) {x y : Rat} (h : x ≤ y) : roundInt tie x ≤ roundInt tie y := by
  rcases eq_or_lt_of_le h with rfl | hlt
  · exact le_rfl
  by_contra hc
  have hc' : roundInt tie y + 1 ≤ roundInt tie x := by omega
  have hc'' : (roundInt tie y : Rat) + 1 ≤ roundInt tie x := by exact_mod_cast hc'
  have hx := (roundInt_near tie x).1
  have hy := (roundInt_near tie y).2
  linarith

theorem roundInt_nonneg (tie : RoundTie) {x : Rat} (h : 0 ≤ x) : 0 ≤ roundInt tie x := by
  have := roundInt_mono tie h
  rwa [show (0 : Rat) = ((0 : Int) : Rat) by simp, roundInt_intCast] at this

@[simp] theorem fl_exact (q : Rat) : fl .exact q = q := rfl
@[simp] theorem fl_binary64 (q : Rat) : fl .binary64 q = round64 q := rfl
@[simp] theorem round64_zero : round64 0 = 0 := by simp [round64]

theorem round64_of_ne_zero {q : Rat} (h : q ≠ 0) :
    round64 q = (roundInt .even (q / pow2 (ulpExp q)) : Rat) * pow2 (ulpExp q) := by
  simp [round64, h]

/-- Rounding to binary64 moves a number by at most half the spacing at its magnitude. -/
theorem round64_error (q : Rat) : |round64 q - q| ≤ pow2 (ulpExp q) / 2 := by
  by_cases h : q = 0
  · simp only [h, round64_zero, sub_zero, abs_zero]
    exact (div_pos (pow2_pos _) two_pos).le
  · have hp := pow2_pos (ulpExp q)
    have hq : q = q / pow2 (ulpExp q) * pow2 (ulpExp q) := (div_mul_cancel₀ q hp.ne').symm
    obtain ⟨h₁, h₂⟩ := roundInt_near .even (q / pow2 (ulpExp q))
    rw [round64_of_ne_zero h, abs_le]
    constructor <;> nlinarith

/-- The spacing at a magnitude that is not below the subnormal range is at most `2^-52` of the magnitude. -/
theorem pow2_ulpExp_le (q : Rat) (h : q ≠ 0) : pow2 (ulpExp q) ≤ max (|q| * pow2 (-52)) (pow2 (-1074)) := by
  unfold ulpExp
  rcases le_total (-1074) (floorLog2 |q| - 52) with hc | hc
  · rw [max_eq_left hc, sub_eq_add_neg, pow2_add]
    exact le_max_of_le_left (mul_le_mul_of_nonneg_right (floorLog2_spec (abs_pos.mpr h)).1 (pow2_pos _).le)
  · rw [max_eq_right hc]
    exact le_max_right _ _

theorem round64_nonneg {q : Rat} (h : 0 ≤ q) : 0 ≤ round64 q := by
  rcases eq_or_lt_of_le h with rfl | hq
  · simp
  · rw [round64_of_ne_zero hq.ne']
    exact mul_nonneg (by exact_mod_cast roundInt_nonneg _ (div_nonneg h (pow2_pos _).le)) (pow2_pos _).le

/-- An integer multiple of the spacing at its own magnitude is a fixed point of the rounding. -/
theorem round64_of_multiple {q : Rat} {m : Int} (h : q = m * pow2 (ulpExp q)) : round64 q = q := by
  by_cases hq : q = 0
  · simp [hq]
  · rw [round64_of_ne_zero hq]
    have hm : q / pow2 (ulpExp q) = m := by
      rw [div_eq_iff (pow2_pos _).ne']
      exact h
    rw [hm, roundInt_intCast, ← h]

/-- Rounding to the even integer at a tie is odd. -/
theorem roundInt_even_neg (x : Rat) : roundInt .even (-x) = -roundInt .even x := by
  have hf := Int.floor_add_fract x
  have hx : ∀ y : Rat, roundInt .even y = if Int.fract y < 1 / 2 then ⌊y⌋ else if 1 / 2 < Int.fract y then ⌊y⌋ + 1
      else if ⌊y⌋ % 2 = 0 then ⌊y⌋ else ⌊y⌋ + 1 := fun _ => rfl
  by_cases h0 : Int.fract x = 0
  · have : x = (⌊x⌋ : Rat) := by linarith
    rw [this, ← Int.cast_neg, roundInt_intCast, roundInt_intCast]
  · have hn := Int.fract_neg h0
    have hl : ⌊-x⌋ = -⌊x⌋ - 1 := by
      have hg := Int.floor_add_fract (-x)
      rw [hn] at hg
      exact_mod_cast (show ((⌊-x⌋ : Int) : Rat) = ((-⌊x⌋ - 1 : Int) : Rat) by push_cast; linarith)
    rw [hx, hx, hn, hl]
    rcases lt_trichotomy (Int.fract x) (1 / 2) with h | h | h
    · rw [if_neg (by linarith), if_pos (by linarith), if_pos h]; omega
    · rw [h]; norm_num; split_ifs <;> omega
    · rw [if_pos (by linarith), if_neg (by linarith), if_pos h]; omega

/-- Rounding to binary64 is odd. -/
@[simp] theorem round64_neg (q : Rat) : round64 (-q) = -round64 q := by
  by_cases h : q = 0
  · simp [h]
  · have hu : ulpExp (-q) = ulpExp q := by simp [ulpExp]
    rw [round64_of_ne_zero (neg_ne_zero.mpr h), round64_of_ne_zero h, hu, neg_div, roundInt_even_neg]
    push_cast
    ring

/-- A positive number rounds to at least the power of two below it. -/
theorem pow2_le_round64 {q : Rat} (hq : 0 < q) (h : ulpExp q ≤ floorLog2 q) : pow2 (floorLog2 q) ≤ round64 q := by
  have hp := pow2_pos (ulpExp q)
  have he : pow2 (floorLog2 q) / pow2 (ulpExp q) = ((2 ^ (floorLog2 q - ulpExp q).toNat : Int) : Rat) := by
    rw [← pow2_eq_intCast (by omega), div_eq_iff hp.ne', ← pow2_add]
    congr 1; omega
  have hm := roundInt_mono .even (div_le_div_of_nonneg_right (floorLog2_spec hq).1 hp.le)
  rw [he, roundInt_intCast] at hm
  rw [round64_of_ne_zero hq.ne', ← div_le_iff₀ hp, he]
  exact_mod_cast hm

/-- A positive number rounds to at most the power of two above it, or the finest spacing. -/
theorem round64_le_pow2 {q : Rat} (hq : 0 < q) : round64 q ≤ pow2 (max (floorLog2 q + 1) (ulpExp q)) := by
  have hp := pow2_pos (ulpExp q)
  have he : pow2 (max (floorLog2 q + 1) (ulpExp q)) / pow2 (ulpExp q) =
      ((2 ^ (max (floorLog2 q + 1) (ulpExp q) - ulpExp q).toNat : Int) : Rat) := by
    rw [← pow2_eq_intCast (by omega), div_eq_iff hp.ne', ← pow2_add]
    congr 1; omega
  have hle : q ≤ pow2 (max (floorLog2 q + 1) (ulpExp q)) :=
    (floorLog2_spec hq).2.le.trans (pow2_le_pow2.mpr (le_max_left _ _))
  have hm := roundInt_mono .even (div_le_div_of_nonneg_right hle hp.le)
  rw [he, roundInt_intCast] at hm
  rw [round64_of_ne_zero hq.ne', ← le_div_iff₀ hp, he]
  exact_mod_cast hm

theorem ulpExp_of_pos {q : Rat} (hq : 0 < q) : ulpExp q = max (floorLog2 q - 52) (-1074) := by
  rw [ulpExp, abs_of_pos hq]

/-- Rounding to binary64 is monotonic on the non-negative numbers. -/
theorem round64_mono {q r : Rat} (h₀ : 0 ≤ q) (h : q ≤ r) : round64 q ≤ round64 r := by
  rcases eq_or_lt_of_le h₀ with rfl | hq
  · simpa using round64_nonneg h
  · have hr : 0 < r := hq.trans_le h
    have hf := floorLog2_mono hq h
    have eq₁ := ulpExp_of_pos hq
    have eq₂ := ulpExp_of_pos hr
    by_cases he : ulpExp q = ulpExp r
    · rw [round64_of_ne_zero hq.ne', round64_of_ne_zero hr.ne', he]
      refine mul_le_mul_of_nonneg_right ?_ (pow2_pos _).le
      exact_mod_cast roundInt_mono .even (div_le_div_of_nonneg_right h (pow2_pos _).le)
    · calc round64 q ≤ pow2 (max (floorLog2 q + 1) (ulpExp q)) := round64_le_pow2 hq
        _ ≤ pow2 (floorLog2 r) := pow2_le_pow2.mpr (by omega)
        _ ≤ round64 r := pow2_le_round64 hr (by omega)

end Sys2Proof.Machine
end

