-- ==== Sys2Proof/Laws/Encoding.lean ====
section
/-! SUPPORT. Small facts of the encoder: the op it writes. -/

namespace Sys2Proof

/-- The op of each command (R38). -/
def opNumber : Instr → BitVec 4
  | .parity _ => 1
  | .syndrome _ => 2
  | .nl _ => 3
  | .cpr _ _ _ => 4
  | .alt _ _ => 5
  | .frame _ _ _ => 6
  | .ident _ _ _ _ _ _ => 7
  | .pos _ _ _ _ _ _ _ _ _ _ _ => 8

theorem getLsbD_maskBits (hi lo k : Nat) (h : lo ≤ hi) :
    (maskBits hi lo).getLsbD k = (decide (k < 256) && decide (lo ≤ k) && decide (k ≤ hi)) := by
  unfold maskBits
  rw [BitVec.getLsbD_ofNat]
  have h₁ : 2 ^ (hi + 1) - 2 ^ lo = 2 ^ lo * (2 ^ (hi + 1 - lo) - 1) := by
    rw [Nat.mul_sub, ← Nat.pow_add, Nat.add_sub_cancel' (by omega), Nat.mul_one]
  rw [h₁, Nat.testBit_two_pow_mul, Nat.testBit_two_pow_sub_one]
  by_cases hk : lo ≤ k
  · have : (k - lo < hi + 1 - lo) = (k ≤ hi) := by
      apply propext; omega
    simp [hk, this]
  · simp [hk]

/-- A bit above the low part of a concatenation is a bit of the high part. -/
theorem getLsbD_append_of_le {m n : Nat} {x : BitVec m} {y : BitVec n} {k : Nat} (h : n ≤ k) :
    (x ++ y).getLsbD k = x.getLsbD (k - n) := by
  rw [BitVec.getLsbD_append, if_neg (by omega)]

/-- A bit of the low part of a concatenation. -/
theorem getLsbD_append_of_lt {m n : Nat} {x : BitVec m} {y : BitVec n} {k : Nat} (h : k < n) :
    (x ++ y).getLsbD k = y.getLsbD k := by
  rw [BitVec.getLsbD_append, if_pos h]

end Sys2Proof
end

