-- ==== Sys2Proof/Laws/PerInstr.lean ====
section
/-! SUPPORT. The per-instruction family `SelectsItsRow`: the encoder's word for a command selects the row of
spec/opcode_table.json with the command's mnemonic. -/

namespace Sys2Proof.Laws.SelectsItsRow

/-- The encoded word selects the row of the command's own mnemonic. -/
def Statement (i : Instr) : Prop := ∃ r ∈ opcodeTable, r.mnemonic = i.mnemonic ∧ r.selects (encode i) = true

/-- A word selects a row when it agrees with the pattern wherever the mask has a one. -/
theorem selects_of_bits (r : OpcodeRow) (w : Command) (hp : r.pattern &&& r.mask = r.pattern)
    (h : ∀ k, k < 256 → r.mask.getLsbD k = true → w.getLsbD k = r.pattern.getLsbD k) :
    r.selects w = true := by
  unfold OpcodeRow.selects
  rw [beq_iff_eq, ← hp]
  apply BitVec.eq_of_getLsbD_eq
  intro k hk
  rw [BitVec.getLsbD_and, BitVec.getLsbD_and]
  cases hm : r.mask.getLsbD k with
  | false => simp
  | true => simp [h k hk hm]

/-- A row whose mask is one run of bits up to the top and whose pattern is the op alone. -/
theorem statement_of_run (i : Instr) (n lo : Nat) (op : BitVec 4) (hn : n < opcodeTable.length)
    (hmn : opcodeTable[n].mnemonic = i.mnemonic) (hm : opcodeTable[n].mask = maskBits 255 lo) (hlo : lo ≤ 252)
    (hp : opcodeTable[n].pattern = op ++ 0#252)
    (hw : ∀ k, lo ≤ k → k < 256 → (encode i).getLsbD k = (op ++ 0#252 : BitVec 256).getLsbD k) :
    Statement i := by
  refine ⟨opcodeTable[n], List.getElem_mem hn, hmn, selects_of_bits _ _ ?_ ?_⟩
  · rw [hm, hp]
    apply BitVec.eq_of_getLsbD_eq
    intro k hk
    rw [BitVec.getLsbD_and, getLsbD_maskBits _ _ _ (by omega), BitVec.getLsbD_append]
    by_cases h : k < 252
    · simp [h]
    · have : lo ≤ k := by omega
      have : k ≤ 255 := by omega
      simp [*]
  · intro k hk h
    rw [hm, getLsbD_maskBits _ _ _ (by omega)] at h
    simp only [Bool.and_eq_true, decide_eq_true_eq] at h
    rw [hp]
    exact hw k h.1.2 hk

theorem parity (frame : Frame) : Statement (.parity frame) := by
  refine statement_of_run _ 0 112 0x1 (by decide) rfl (by decide) (by decide) (by decide) fun k h₁ h₂ => ?_
  simp only [encode, BitVec.getLsbD_append]
  split_ifs <;> first | omega | simp only [BitVec.getLsbD_zero] | exact congrArg _ (by omega)

theorem syndrome (frame : Frame) : Statement (.syndrome frame) := by
  refine statement_of_run _ 1 112 0x2 (by decide) rfl (by decide) (by decide) (by decide) fun k h₁ h₂ => ?_
  simp only [encode, BitVec.getLsbD_append]
  split_ifs <;> first | omega | simp only [BitVec.getLsbD_zero] | exact congrArg _ (by omega)

theorem nl (lat : Binary64) : Statement (.nl lat) := by
  refine statement_of_run _ 2 64 0x3 (by decide) rfl (by decide) (by decide) (by decide) fun k h₁ h₂ => ?_
  simp only [encode, BitVec.getLsbD_append]
  split_ifs <;> first | omega | simp only [BitVec.getLsbD_zero] | exact congrArg _ (by omega)

theorem cpr (odd : Bool) (lat lon : Binary64) : Statement (.cpr odd lat lon) := by
  refine statement_of_run _ 3 129 0x4 (by decide) rfl (by decide) (by decide) (by decide) fun k h₁ h₂ => ?_
  simp only [encode, BitVec.getLsbD_append]
  split_ifs <;> first | omega | simp only [BitVec.getLsbD_zero] | exact congrArg _ (by omega)

theorem alt (gnss : Bool) (alt : Binary64) : Statement (.alt gnss alt) := by
  refine statement_of_run _ 4 65 0x5 (by decide) rfl (by decide) (by decide) (by decide) fun k h₁ h₂ => ?_
  simp only [encode, BitVec.getLsbD_append]
  split_ifs <;> first | omega | simp only [BitVec.getLsbD_zero] | exact congrArg _ (by omega)

theorem frame (ca : BitVec 3) (icao : BitVec 24) (me : MsgElem) : Statement (.frame ca icao me) := by
  refine statement_of_run _ 5 83 0x6 (by decide) rfl (by decide) (by decide) (by decide) fun k h₁ h₂ => ?_
  simp only [encode, BitVec.getLsbD_append]
  split_ifs <;> first | omega | simp only [BitVec.getLsbD_zero] | exact congrArg _ (by omega)

theorem ident (ca : BitVec 3) (icao : BitVec 24) (tc : BitVec 5) (ec : BitVec 3) (cslen : BitVec 4)
    (cs : BitVec 64) : Statement (.ident ca icao tc ec cslen cs) := by
  have hm : opcodeTable[6].mask = maskBits 255 107 ||| maskBits 71 68 := by decide
  refine ⟨opcodeTable[6], List.getElem_mem (by decide), rfl, selects_of_bits _ _ (by decide) fun k hk h => ?_⟩
  have hp : opcodeTable[6].pattern = 7#4 ++ 0#252 := by decide
  rw [hm, BitVec.getLsbD_or, getLsbD_maskBits _ _ _ (by omega), getLsbD_maskBits _ _ _ (by omega)] at h
  simp only [Bool.or_eq_true, Bool.and_eq_true, decide_eq_true_eq] at h
  rw [hp]
  simp only [encode, BitVec.getLsbD_append]
  split_ifs <;> first | omega | simp only [BitVec.getLsbD_zero] | exact congrArg _ (by omega)

theorem pos (ca : BitVec 3) (icao : BitVec 24) (tc : BitVec 5) (ss : BitVec 2) (saf gnss t odd : Bool)
    (alt lat lon : Binary64) : Statement (.pos ca icao tc ss saf gnss t odd alt lat lon) := by
  refine statement_of_run _ 7 230 0x8 (by decide) rfl (by decide) (by decide) (by decide) fun k h₁ h₂ => ?_
  rw [encode, getLsbD_append_of_le, getLsbD_append_of_le, getLsbD_append_of_le, getLsbD_append_of_le,
    getLsbD_append_of_le, getLsbD_append_of_le, getLsbD_append_of_le, getLsbD_append_of_le, getLsbD_append_of_le,
    getLsbD_append_of_le, getLsbD_append_of_le, BitVec.getLsbD_append, BitVec.getLsbD_append]
  all_goals try omega
  split_ifs <;> first | omega | simp only [BitVec.getLsbD_zero] | exact congrArg _ (by omega)

end Sys2Proof.Laws.SelectsItsRow
end

