-- ==== Sys2Proof/Laws/State.lean ====
section
/-! SUPPORT. One lemma per field per update of the state, so that no proof unfolds a record update. -/

namespace Sys2Proof.Machine

variable (s : State)

@[simp] theorem State.tick_busy (p : Ports) : (s.tick p).busy = s.busy := rfl
@[simp] theorem State.tick_cmdQ (p : Ports) : (s.tick p).cmdQ = s.cmdQ := rfl
@[simp] theorem State.tick_rspValid (p : Ports) : (s.tick p).rspValid = s.rspValid := rfl
@[simp] theorem State.tick_rspStatus (p : Ports) : (s.tick p).rspStatus = s.rspStatus := rfl
@[simp] theorem State.tick_rspData (p : Ports) : (s.tick p).rspData = s.rspData := rfl
@[simp] theorem State.tick_wait (p : Ports) : (s.tick p).wait = s.wait := rfl
@[simp] theorem State.tick_accepts (p : Ports) : (s.tick p).accepts = s.accepts := rfl
@[simp] theorem State.tick_inputs (p : Ports) : (s.tick p).inputs = s.inputs.tail := rfl
@[simp] theorem State.tick_offered (p : Ports) : (s.tick p).offered = (if p.cmdValid && !s.cmdReady p then some p.cmd else none) := rfl
@[simp] theorem State.tick_delivered (p : Ports) : (s.tick p).delivered = s.delivered := rfl

@[simp] theorem State.resetRegisters_busy : (s.resetRegisters).busy = false := rfl
@[simp] theorem State.resetRegisters_cmdQ : (s.resetRegisters).cmdQ = 0 := rfl
@[simp] theorem State.resetRegisters_rspValid : (s.resetRegisters).rspValid = false := rfl
@[simp] theorem State.resetRegisters_rspStatus : (s.resetRegisters).rspStatus = 0 := rfl
@[simp] theorem State.resetRegisters_rspData : (s.resetRegisters).rspData = 0 := rfl
@[simp] theorem State.resetRegisters_wait : (s.resetRegisters).wait = 0 := rfl
@[simp] theorem State.resetRegisters_accepts : (s.resetRegisters).accepts = s.accepts := rfl
@[simp] theorem State.resetRegisters_inputs : (s.resetRegisters).inputs = s.inputs := rfl
@[simp] theorem State.resetRegisters_offered : (s.resetRegisters).offered = s.offered := rfl
@[simp] theorem State.resetRegisters_delivered : (s.resetRegisters).delivered = s.delivered := rfl

@[simp] theorem State.accept_busy (c : Command) : (s.accept c).busy = true := rfl
@[simp] theorem State.accept_cmdQ (c : Command) : (s.accept c).cmdQ = c := rfl
@[simp] theorem State.accept_rspValid (c : Command) : (s.accept c).rspValid = s.rspValid := rfl
@[simp] theorem State.accept_rspStatus (c : Command) : (s.accept c).rspStatus = s.rspStatus := rfl
@[simp] theorem State.accept_rspData (c : Command) : (s.accept c).rspData = s.rspData := rfl
@[simp] theorem State.accept_wait (c : Command) : (s.accept c).wait = Config.latency s.accepts c - 1 := rfl
@[simp] theorem State.accept_accepts (c : Command) : (s.accept c).accepts = s.accepts + 1 := rfl
@[simp] theorem State.accept_inputs (c : Command) : (s.accept c).inputs = s.inputs := rfl
@[simp] theorem State.accept_offered (c : Command) : (s.accept c).offered = s.offered := rfl
@[simp] theorem State.accept_delivered (c : Command) : (s.accept c).delivered = s.delivered := rfl

@[simp] theorem State.countDown_busy : (s.countDown).busy = s.busy := rfl
@[simp] theorem State.countDown_cmdQ : (s.countDown).cmdQ = s.cmdQ := rfl
@[simp] theorem State.countDown_rspValid : (s.countDown).rspValid = s.rspValid := rfl
@[simp] theorem State.countDown_rspStatus : (s.countDown).rspStatus = s.rspStatus := rfl
@[simp] theorem State.countDown_rspData : (s.countDown).rspData = s.rspData := rfl
@[simp] theorem State.countDown_wait : (s.countDown).wait = s.wait - 1 := rfl
@[simp] theorem State.countDown_accepts : (s.countDown).accepts = s.accepts := rfl
@[simp] theorem State.countDown_inputs : (s.countDown).inputs = s.inputs := rfl
@[simp] theorem State.countDown_offered : (s.countDown).offered = s.offered := rfl
@[simp] theorem State.countDown_delivered : (s.countDown).delivered = s.delivered := rfl

@[simp] theorem State.respond_busy (r : Response) : (s.respond r).busy = s.busy := rfl
@[simp] theorem State.respond_cmdQ (r : Response) : (s.respond r).cmdQ = s.cmdQ := rfl
@[simp] theorem State.respond_rspValid (r : Response) : (s.respond r).rspValid = true := rfl
@[simp] theorem State.respond_rspStatus (r : Response) : (s.respond r).rspStatus = r.status := rfl
@[simp] theorem State.respond_rspData (r : Response) : (s.respond r).rspData = r.data := rfl
@[simp] theorem State.respond_wait (r : Response) : (s.respond r).wait = s.wait := rfl
@[simp] theorem State.respond_accepts (r : Response) : (s.respond r).accepts = s.accepts := rfl
@[simp] theorem State.respond_inputs (r : Response) : (s.respond r).inputs = s.inputs := rfl
@[simp] theorem State.respond_offered (r : Response) : (s.respond r).offered = s.offered := rfl
@[simp] theorem State.respond_delivered (r : Response) : (s.respond r).delivered = s.delivered := rfl

@[simp] theorem State.deliver_busy : (s.deliver).busy = false := rfl
@[simp] theorem State.deliver_cmdQ : (s.deliver).cmdQ = s.cmdQ := rfl
@[simp] theorem State.deliver_rspValid : (s.deliver).rspValid = false := rfl
@[simp] theorem State.deliver_rspStatus : (s.deliver).rspStatus = s.rspStatus := rfl
@[simp] theorem State.deliver_rspData : (s.deliver).rspData = s.rspData := rfl
@[simp] theorem State.deliver_wait : (s.deliver).wait = s.wait := rfl
@[simp] theorem State.deliver_accepts : (s.deliver).accepts = s.accepts := rfl
@[simp] theorem State.deliver_inputs : (s.deliver).inputs = s.inputs := rfl
@[simp] theorem State.deliver_offered : (s.deliver).offered = s.offered := rfl
@[simp] theorem State.deliver_delivered : (s.deliver).delivered = ⟨s.cmdQ, s.rspStatus, s.rspData⟩ :: s.delivered := rfl

@[simp] theorem State.placeCommand_busy (c : Command) : (s.placeCommand c).busy = true := rfl
@[simp] theorem State.placeCommand_cmdQ (c : Command) : (s.placeCommand c).cmdQ = c := rfl
@[simp] theorem State.placeCommand_rspValid (c : Command) : (s.placeCommand c).rspValid = false := rfl
@[simp] theorem State.placeCommand_rspStatus (c : Command) : (s.placeCommand c).rspStatus = s.rspStatus := rfl
@[simp] theorem State.placeCommand_rspData (c : Command) : (s.placeCommand c).rspData = s.rspData := rfl
@[simp] theorem State.placeCommand_wait (c : Command) : (s.placeCommand c).wait = 0 := rfl
@[simp] theorem State.placeCommand_accepts (c : Command) : (s.placeCommand c).accepts = s.accepts := rfl
@[simp] theorem State.placeCommand_inputs (c : Command) : (s.placeCommand c).inputs = quietPorts s.offered :: s.inputs := rfl
@[simp] theorem State.placeCommand_offered (c : Command) : (s.placeCommand c).offered = s.offered := rfl
@[simp] theorem State.placeCommand_delivered (c : Command) : (s.placeCommand c).delivered = s.delivered := rfl

/-- Completing is responding with the response of the result or error. -/
@[simp] theorem State.complete_eq_respond (r : Except CommandError Data) : s.complete r = s.respond (responseOf r) := rfl

/-- Rejecting a word is responding with its error. -/
@[simp] theorem State.rejectCommand_eq_respond (e : Illegal) :
    s.rejectCommand e = s.respond (responseOf (.error (illegalError e))) := rfl

@[simp] theorem State.fetch_eq_decode : s.fetch = decode s.cmdQ := rfl

theorem State.ports_cons {p : Ports} {ps : List Ports} (h : s.inputs = p :: ps) : s.ports = p := by
  simp [State.ports, h]

theorem State.ports_nil (h : s.inputs = []) : s.ports = quietPorts s.offered := by
  simp [State.ports, h]

/-- A quiet cycle keeps the hold of R108 (a). -/
theorem State.holdBroken_quietPorts : s.holdBroken (quietPorts s.offered) = false := by
  unfold State.holdBroken quietPorts
  cases s.offered <;> simp

theorem State.holdBroken_of_offered_none (p : Ports) (h : s.offered = none) : s.holdBroken p = false := by
  simp [State.holdBroken, h]

theorem State.holdBroken_eq_true_iff (p : Ports) :
    s.holdBroken p = true ↔ ∃ c, s.offered = some c ∧ ¬(p.cmdValid = true ∧ p.cmd = c) := by
  unfold State.holdBroken
  cases s.offered with
  | none => simp
  | some c => cases p.cmdValid <;> simp

@[simp] theorem responseOf_ok (d : Data) : responseOf (.ok d) = ⟨0, d⟩ := rfl

@[simp] theorem responseOf_error (e : CommandError) :
    responseOf (.error e) = ⟨statusCode e.status, errorDetail e⟩ := rfl

end Sys2Proof.Machine
end

