-- ==== Sys2Proof/Laws/Step.lean ====
section
/-! SUPPORT. What a cycle can do, said once: which rule applies (`nextAction_cases`), what `exec` answers
(`exec_eq_respond`) and what a step that answers a next state did (`step_cases`). -/

namespace Sys2Proof.Machine

open Sys2Proof.Safety

/-- Every command answers its result, whatever the state. -/
theorem exec_eq_respond (i : Instr) (s : State) :
    exec i s = .next (s.respond (responseOf (commandResult params i))) := by
  cases i <;> rfl

theorem execute_of_decode {c : Command} {i : Instr} (h : decode c = .ok i) :
    execute c = responseOf (commandResult params i) := by
  simp [execute, executeWith, h]

theorem execute_of_illegal {c : Command} {e : Illegal} (h : decode c = .error e) :
    execute c = responseOf (.error (illegalError e)) := by
  simp [execute, executeWith, h]

/-- The rule that applies in a cycle, with everything its premises say. -/
theorem nextAction_cases (s : State) (p : Ports) :
    (p.rst = true ∧ s.nextAction p = .reset) ∨
    (p.rst = false ∧ s.holdBroken p = true ∧ s.nextAction p = .notHeld) ∨
    (p.rst = false ∧ s.holdBroken p = false ∧
      ((s.busy = false ∧ p.cmdValid = true ∧ s.nextAction p = .accept) ∨
       (s.busy = false ∧ p.cmdValid = false ∧ s.nextAction p = .idle) ∨
       (s.busy = true ∧ s.rspValid = false ∧ s.wait = 0 ∧ s.nextAction p = .complete) ∨
       (s.busy = true ∧ s.rspValid = false ∧ s.wait ≠ 0 ∧ s.nextAction p = .compute) ∨
       (s.busy = true ∧ s.rspValid = true ∧ p.rspReady = true ∧ s.nextAction p = .deliver) ∨
       (s.busy = true ∧ s.rspValid = true ∧ p.rspReady = false ∧ s.nextAction p = .stall))) := by
  unfold State.nextAction
  cases p.rst <;> cases s.holdBroken p <;> cases s.busy <;> cases p.cmdValid <;> cases s.rspValid <;>
    cases p.rspReady <;> by_cases h : s.wait = 0 <;> simp [h]

/-- In the completing cycle a step writes what `Execute` gives for the sampled word. -/
theorem step_of_complete {s : State} (h : s.nextAction s.ports = .complete) :
    step s = .next ((s.tick s.ports).respond (execute s.cmdQ)) := by
  unfold step
  simp only [h, State.fetch_eq_decode, State.tick_cmdQ]
  cases hd : decode s.cmdQ with
  | ok i => simp [exec_eq_respond, execute_of_decode hd]
  | error e => simp [execute_of_illegal hd]

/-- What a step did when it answered a next state: the rule that applied, and the state it left. -/
theorem step_cases {s t : State} (h : step s = .next t) :
    (s.ports.rst = true ∧ t = (s.tick s.ports).resetRegisters) ∨
    (s.ports.rst = false ∧ s.holdBroken s.ports = false ∧
      ((s.busy = false ∧ s.ports.cmdValid = true ∧ t = (s.tick s.ports).accept s.ports.cmd) ∨
       (s.busy = false ∧ s.ports.cmdValid = false ∧ t = s.tick s.ports) ∨
       (s.busy = true ∧ s.rspValid = false ∧ s.wait = 0 ∧
        t = (s.tick s.ports).respond (execute s.cmdQ)) ∨
       (s.busy = true ∧ s.rspValid = false ∧ s.wait ≠ 0 ∧ t = (s.tick s.ports).countDown) ∨
       (s.busy = true ∧ s.rspValid = true ∧ s.ports.rspReady = true ∧ t = (s.tick s.ports).deliver) ∨
       (s.busy = true ∧ s.rspValid = true ∧ s.ports.rspReady = false ∧ t = s.tick s.ports))) := by
  rcases nextAction_cases s s.ports with ⟨hr, ha⟩ | ⟨hr, hh, ha⟩ | ⟨hr, hh, hc⟩
  · exact .inl ⟨hr, by simpa [step, ha] using h.symm⟩
  · simp [step, ha] at h
  · refine .inr ⟨hr, hh, ?_⟩
    rcases hc with ⟨h₁, h₂, ha⟩ | ⟨h₁, h₂, ha⟩ | ⟨h₁, h₂, h₃, ha⟩ | ⟨h₁, h₂, h₃, ha⟩ | ⟨h₁, h₂, h₃, ha⟩ |
        ⟨h₁, h₂, h₃, ha⟩
    · exact .inl ⟨h₁, h₂, by simpa [step, ha] using h.symm⟩
    · exact .inr (.inl ⟨h₁, h₂, by simpa [step, ha] using h.symm⟩)
    · exact .inr (.inr (.inl ⟨h₁, h₂, h₃, by simpa [step_of_complete ha] using h.symm⟩))
    · exact .inr (.inr (.inr (.inl ⟨h₁, h₂, h₃, by simpa [step, ha] using h.symm⟩)))
    · exact .inr (.inr (.inr (.inr (.inl ⟨h₁, h₂, h₃, by simpa [step, ha] using h.symm⟩))))
    · exact .inr (.inr (.inr (.inr (.inr ⟨h₁, h₂, h₃, by simpa [step, ha] using h.symm⟩))))

end Sys2Proof.Machine
end

