-- ==== Sys2Proof/Laws/Units.lean ====
section
/-! SUPPORT. What the shared pieces of the units answer, said once: the operand checks (R66, R73), the callsign (R85),
the altitude encodings (R75, R78, R80), and the length of the CRC's byte list (R58). -/

namespace Sys2Proof.Machine

open Sys2Proof.Safety

theorem checkLat_cases (f : Binary64) :
    (latValid f ∧ checkLat f = .ok ()) ∨ (¬ latValid f ∧ checkLat f = .error ⟨.range, .lat, 0⟩) := by
  unfold checkLat latValid
  split_ifs with h
  · exact .inr ⟨fun ⟨h₁, h₂⟩ => by rcases h with h | h <;> [simp [h₁] at h; exact absurd h (not_lt.mpr h₂)], rfl⟩
  · push Not at h
    exact .inl ⟨⟨by simpa using h.1, h.2⟩, rfl⟩

theorem checkLon_cases (f : Binary64) :
    (lonValid f ∧ checkLon f = .ok ()) ∨ (¬ lonValid f ∧ checkLon f = .error ⟨.range, .lon, 0⟩) := by
  unfold checkLon lonValid
  split_ifs with h
  · exact .inr ⟨fun ⟨h₁, h₂⟩ => by rcases h with h | h <;> [simp [h₁] at h; exact absurd h (not_lt.mpr h₂)], rfl⟩
  · push Not at h
    exact .inl ⟨⟨by simpa using h.1, h.2⟩, rfl⟩

theorem checkAlt_cases (p : Params) (f : Binary64) :
    (isFinite64 f = false ∧ checkAlt p f = .error ⟨.range, .alt, 0⟩) ∨
    (isFinite64 f = true ∧ (feet p.arith (val64 f)).lt 0 = true ∧ checkAlt p f = .error ⟨.validation, .alt, 0⟩) ∨
    (isFinite64 f = true ∧ (feet p.arith (val64 f)).lt 0 = false ∧ checkAlt p f = .ok ()) := by
  unfold checkAlt
  cases isFinite64 f <;> cases (feet p.arith (val64 f)).lt 0 <;> simp [raise]

theorem altGnss_cases (p : Params) (m : Rat) :
    (4095 < roundInt p.roundTie m ∧ altGnss p m = .error ⟨.range, .alt, 0⟩) ∨
    (roundInt p.roundTie m ≤ 4095 ∧ altGnss p m = .ok (BitVec.ofInt 12 (roundInt p.roundTie m))) := by
  unfold altGnss
  dsimp only
  split_ifs with h
  · exact .inl ⟨h, rfl⟩
  · exact .inr ⟨not_lt.mp h, rfl⟩

theorem altQ0_cases (p : Params) (x : Rat) :
    (128000 ≤ fl p.arith (x + 1300) ∧ altQ0 p (.fin x) = .error ⟨.range, .alt, 0⟩) ∨
    (fl p.arith (x + 1300) < 128000 ∧ altQ0 p (.fin x) = .ok (q0Code p (fl p.arith (x + 1300)))) := by
  unfold altQ0
  dsimp only
  split_ifs with h
  · exact .inl ⟨h, rfl⟩
  · exact .inr ⟨not_le.mp h, rfl⟩

theorem callsign_cases (cslen : BitVec 4) (cs : BitVec 64) :
    (8 < cslen.toNat ∧ callsign cslen cs = .error ⟨.range, .cslen, 0⟩) ∨
    (cslen.toNat ≤ 8 ∧ ∃ i, firstInvalid cs cslen.toNat = some i ∧
      callsign cslen cs = .error ⟨.validation, .cschar, BitVec.ofNat 4 i⟩) ∨
    (cslen.toNat ≤ 8 ∧ firstInvalid cs cslen.toNat = none ∧
      callsign cslen cs = .ok ((List.range 8).map (callsignCode cslen cs))) := by
  unfold callsign
  split_ifs with h
  · exact .inl ⟨h, rfl⟩
  · cases hi : firstInvalid cs cslen.toNat with
    | some i => exact .inr (.inl ⟨not_lt.mp h, i, rfl, rfl⟩)
    | none => exact .inr (.inr ⟨not_lt.mp h, rfl, rfl⟩)

@[simp] theorem length_xorByte (bs : List Byte) (i x : Nat) : (xorByte bs i x).length = bs.length := by
  simp [xorByte]

@[simp] theorem length_crcBit (i : Nat) (bs : List Byte) (b : Nat) : (crcBit i bs b).length = bs.length := by
  unfold crcBit
  split_ifs <;> simp

theorem length_foldl_crcBit (i : Nat) (l : List Nat) (bs : List Byte) :
    (l.foldl (crcBit i) bs).length = bs.length := by
  induction l generalizing bs with
  | nil => rfl
  | cons b l ih => simp [ih]

@[simp] theorem length_crcByte (bs : List Byte) (i : Nat) : (crcByte bs i).length = bs.length :=
  length_foldl_crcBit i _ bs

@[simp] theorem length_frameBytes (m : Frame) : (frameBytes m).length = 14 := by simp [frameBytes]

end Sys2Proof.Machine
end

