-- ==== Sys2Proof/Tests/Slice0.lean ====
section
/-! SUPPORT. The model's own tests. Expected values are the spec's (95_test_vectors.md, by the vector's id) or are
worked from its rules; each test runs one step or one function. Then a witness for every statement that has
hypotheses: operands that meet them, clause by clause. -/

-- One theorem at a time: each `decide +kernel` waits for the one before it, and waiting threads take memory.
set_option Elab.async false

namespace Sys2Proof.Tests

open Sys2Proof.Machine Sys2Proof.Safety

/-! ### Well-formedness: each check refuses an ill-formed term -/

/-- R39, R54: op 0x0, op 0x9 and op 0xF. -/
theorem test_wellFormed_refuses_reserved_op :
    wellFormedWord 0 = false ∧ wellFormedWord (0x9#4 ++ 0#252) = false ∧ wellFormedWord (0xF#4 ++ 0#252) = false := by
  decide

/-- R40: the lowest reserved bit of each format (vectors CRC16, NL18, CPR47, ALT32, ASM14, ASM25), and `frame`'s. -/
theorem test_wellFormed_refuses_reserved_bit :
    wellFormedWord 0x1000000000000000000000000000000000018D4840D6202CC371C32CE0576098 = false ∧
    wellFormedWord 0x300000000000000000000000000000000000000000000001404A20EBEDFA43FE = false ∧
    wellFormedWord 0x4000000000000000000000000000000200000000000000000000000000000000 = false ∧
    wellFormedWord 0x5000000000000000000000000000000000000000000000020000000000000000 = false ∧
    wellFormedWord 0x6000000000000000000000000000000000000000000800000000000000000000 = false ∧
    wellFormedWord 0x700000000000000000000000000000000000054840D620154B4C323034000000 = false ∧
    wellFormedWord 0x8000006A0310EAC040C69F3333333333404A20EBEDFA43FE400F5ADEA897635E = false := by decide

theorem test_wellFormed_accepts_a_command :
    wellFormedWord 0x700000000000000000000000000000000000054840D620054B4C323034000000 = true := by decide

/-- R79: a map that names one Gray bit twice, and one that is too short, are no permutation. -/
theorem test_wellFormed_refuses_bad_q0Map :
    ({ params with q0Map := List.replicate 11 (.g500 0) } : Params).wellFormed = false ∧
    ({ params with q0Map := defaultQ0Map.tail } : Params).wellFormed = false ∧ params.wellFormed = true := by decide

/-! ### Encoding: words written out bit by bit from R38, R41 to R47 -/

/-- R40 and the table's masks, transcribed apart, are the same bits. -/
theorem test_masks_agree :
    opcodeTable.map (·.mask) =
      ([1, 2, 3, 4, 5, 6, 7, 8] : List (BitVec 4)).map fun op => maskBits 255 252 ||| reservedMask op := by decide

theorem test_decode_parity : decode (0b0001#4 ++ 0#140 ++ 0xABC#112) = .ok (.parity 0xABC) := by decide
theorem test_decode_syndrome : decode (0b0010#4 ++ 0#140 ++ 0xABC#112) = .ok (.syndrome 0xABC) := by decide
theorem test_decode_nl : decode (0b0011#4 ++ 0#188 ++ 0x4055C00000000000#64) = .ok (.nl 0x4055C00000000000) := by decide
theorem test_decode_cpr :
    decode (0b0100#4 ++ 0#123 ++ 1#1 ++ 0x4046800000000000#64 ++ 0xC056800000000000#64) =
      .ok (.cpr true 0x4046800000000000 0xC056800000000000) := by decide
theorem test_decode_alt :
    decode (0b0101#4 ++ 0#187 ++ 1#1 ++ 0x3FE0000000000000#64) = .ok (.alt true 0x3FE0000000000000) := by decide
theorem test_decode_frame :
    decode (0b0110#4 ++ 0#169 ++ 0b101#3 ++ 0x4840D6#24 ++ 0x202CC371C32CE0#56) =
      .ok (.frame 5 0x4840D6 0x202CC371C32CE0) := by decide
theorem test_decode_ident :
    decode (0b0111#4 ++ 0#145 ++ 0b101#3 ++ 0x4840D6#24 ++ 0b00100#5 ++ 0b010#3 ++ 0#4 ++ 0b0101#4 ++
      0x4B4C323034000000#64) = .ok (.ident 5 0x4840D6 4 2 5 0x4B4C323034000000) := by decide
theorem test_decode_pos :
    decode (0b1000#4 ++ 0#22 ++ 0b010#3 ++ 0x123456#24 ++ 0b01001#5 ++ 0b11#2 ++ 0b1#1 ++ 0b0#1 ++ 0b1#1 ++ 0b0#1 ++
      1#64 ++ 2#64 ++ 3#64) = .ok (.pos 2 0x123456 9 3 true false true false 1 2 3) := by decide

/-- The opcode table's numbering: bit 0 is the least significant, and bits above `nbits` are 0. -/
theorem test_decodeTableWord :
    decodeTableWord 256 (0x3 * 2 ^ 252 + 0x4055C00000000000) = some (.nl 0x4055C00000000000) ∧
    decodeTableWord 256 0 = none := by decide

/-! ### Commands: the completing step after a command is placed -/

/-- The response the next step writes for a command word. -/
def answer (c : Command) : Option (BitVec 3 × Data) :=
  match step (State.reset.placeCommand c) with
  | .next s => if s.rspValid && s.busy then some (s.rspStatus, s.rspData) else none
  | _ => none

/-- CRC1: the trailer is ignored. -/
theorem test_parity : answer 0x1000000000000000000000000000000000008D4840D6202CC371C32CE0576098 =
    some (0, 0x576098) := by decide +kernel
/-- CRC10: all ones. -/
theorem test_parity_ones : answer 0x100000000000000000000000000000000000FFFFFFFFFFFFFFFFFFFFFFFFFFFF =
    some (0, 0xD1D94C) := by decide +kernel
/-- CRC5: the last header bit flipped. -/
theorem test_syndrome_bit24 : answer 0x2000000000000000000000000000000000008D4840D6202CC371C32CE1576098 =
    some (0, 0xFFF409) := by decide +kernel
/-- CRC6: the first bit flipped. -/
theorem test_syndrome_bit111 : answer 0x2000000000000000000000000000000000000D4840D6202CC371C32CE0576098 =
    some (0, 0x3935EA) := by decide +kernel
/-- NL10: -87 degrees still has 2 zones. -/
theorem test_nl_minus87 : answer 0x300000000000000000000000000000000000000000000000C055C00000000000 =
    some (0, 2) := by decide +kernel
/-- NL15: just above 90 degrees. -/
theorem test_nl_range : answer 0x30000000000000000000000000000000000000000000000040568000006B5FCA =
    some (3, 6) := by decide +kernel
/-- CPR4: a negative latitude, odd. -/
theorem test_cpr_odd : answer 0x40000000000000000000000000000001C040EF34D6A161E54062E6B295E9E1B1 =
    some (0, 0x1CC10528E) := by decide +kernel
/-- CPR7: values just below a zone edge clamp. -/
theorem test_cpr_clamp : answer 0x40000000000000000000000000000000BEB0C6F7A0B5ED8DBEB0C6F7A0B5ED8D =
    some (0, 0x3FFFFFFFF) := by decide +kernel
/-- ALT5: 38000 ft, which only BINARY64 reaches from 11582.4 m. -/
theorem test_alt_q1 : answer 0x50000000000000000000000000000000000000000000000040C69F3333333333 =
    some (0, 0x1C38) := by decide +kernel
/-- ALT11: a Q0 code. -/
theorem test_alt_q0 : answer 0x50000000000000000000000000000000000000000000000040D3880000000000 =
    some (0, 0x2A2F) := by decide +kernel
/-- ASM2: all-zero operands. -/
theorem test_frame_zero : answer 0x6000000000000000000000000000000000000000000000000000000000000000 =
    some (0, 0x8800000000000000000000FAA231) := by decide +kernel
/-- ASM13: the bytes past `cslen` are not examined. -/
theorem test_ident : answer 0x700000000000000000000000000000000000054840D620054B4C323034212121 =
    some (0, 0x8D4840D6202CCCB0D208204125F9) := by decide +kernel
/-- ASM11: punctuation at index 2. -/
theorem test_ident_char : answer 0x700000000000000000000000000000000000054840D620064B4C2D3230340000 =
    some (2, 0x204) := by decide +kernel
/-- ASM20: every flag set, odd, negative latitude. -/
theorem test_pos : answer 0x8000001091A2B27B40730CCCCCCCCCCDC040EF34D6A161E54062E6B295E9E1B1 =
    some (0, 0x8A1234564F0B0DCC10528E5A9615) := by decide +kernel
/-- ASM21: the altitude is checked before the latitude. -/
theorem test_pos_priority : answer 0x8000002A0310EAC0C0140000000000004057C00000000000400F5ADEA897635E =
    some (2, 5) := by decide +kernel
/-- DEC4: op before reserved bits; DEC5: a reserved bit before the operands. -/
theorem test_illegal :
    answer 0xF000000000000100000000000000000000000000000000000000000000000000 = some (1, 1) ∧
    answer 0x780000000000000000000000000000000000054840D620026B6C000000000000 = some (1, 2) := by decide +kernel

/-! ### The other parameters (R8) -/

/-- CPR35 and ALT5 under `ARITH = EXACT`. -/
theorem test_exact :
    executeWith { params with arith := .exact } 0x40000000000000000000000000000000C050400000000000C03CCCCCCCCCCCCD =
      ⟨0, 0x0AAABFFFF⟩ ∧
    executeWith { params with arith := .exact } 0x50000000000000000000000000000000000000000000000040C69F3333333333 =
      ⟨0, 0x1C37⟩ := by decide +kernel

/-- CPR9 under `ROUND_TIE = UP` gives 1, and CPR7 under `CPR_OVERFLOW = WRAP` gives 0 twice (2.4's notes). -/
theorem test_up_and_wrap :
    executeWith { params with roundTie := .up } 0x400000000000000000000000000000003EF80000000000000000000000000000 =
      ⟨0, 0x20000⟩ ∧
    executeWith { params with cprOverflow := .wrap }
      0x40000000000000000000000000000000BEB0C6F7A0B5ED8DBEB0C6F7A0B5ED8D = ⟨0, 0⟩ := by decide +kernel

/-! ### The cycle (P5) -/

/-- P5's cycle 1: the command is accepted; the response is not there yet. -/
theorem test_accept :
    (match step { State.reset with inputs := [offerPorts 0x3] } with
      | .next s => s.busy && s.cmdQ == 0x3 && !s.rspValid && s.offered == none
      | _ => false) = true := by decide

/-- P5's cycle 2: reset abandons the accepted command. -/
theorem test_reset_abandons :
    (match step { State.reset with busy := true, cmdQ := 0x3, wait := 5, inputs := [⟨true, false, 0, true⟩] } with
      | .next s => decide (s = State.reset)
      | _ => false) = true := by decide

/-- R19: while `busy = 1` an offered command is not accepted but stays offered, and dropping it is refused. -/
theorem test_hold :
    (match step { State.reset with busy := true, rspValid := true, inputs := [offerPorts 7, idlePorts] } with
      | .next s => s.offered == some 7 && s.cmdQ == 0 && (match step s with | .refused r => r == .commandNotHeld | _ => false)
      | _ => false) = true := by decide

/-! ### Written forms -/

theorem test_render : renderFrame 0x8D4840D6202CC371C32CE0576098 = "8D4840D6202CC371C32CE0576098".toList := by decide

/-- ASM15's line. -/
theorem test_assemble_pos :
    assembleLine "pos.e ca=5, icao=40621D, tc=11, ss=0, saf=0, t=0, baro=11582.4, lat=52.2572, lon=3.91937" =
      some 0x8000002A0310EAC040C69F3333333333404A20EBEDFA43FE400F5ADEA897635E := by decide +kernel

/-! ### Witnesses: the hypotheses of each statement, met together -/

theorem witness_DecodeThenEncodeGivesTheWord :
    decode 0x600000000000000000000000000000000000000000054840D6202CC371C32CE0 =
      .ok (.frame 5 0x4840D6 0x202CC371C32CE0) := by decide

theorem witness_DecoderAcceptsExactlyTheTablesWords :
    decode (0x3#4 ++ 0#252) = .ok (.nl 0) ∧
    (∃ r ∈ opcodeTable, r.selects (0x3#4 ++ 0#252) = true) := by
  refine ⟨by decide, by decide⟩

/-- Both clauses at the edges of the reserved ops (0x0, 0x9, 0xF) and at the lowest reserved bit of op 0x8. -/
theorem witness_IllegalWordsAreReported :
    (∀ op ∈ ([0x0, 0x9, 0xF] : List (BitVec 4)),
      let s := State.reset.placeCommand (op ++ 0#252);
      s.nextAction s.ports = .complete ∧ legalOp s.cmdQ = false) ∧
    (let s := State.reset.placeCommand (0x8#4 ++ 0#21 ++ 1#1 ++ 0#230);
      s.nextAction s.ports = .complete ∧ legalOp s.cmdQ = true ∧ wellFormedWord s.cmdQ = false) := by decide

theorem witness_StepRunsTheDecodedCommand :
    (let s := State.reset.placeCommand (0x3#4 ++ 0#252);
      s.nextAction s.ports = .complete ∧ decode s.cmdQ = .ok (.nl 0)) ∧
    decodeTableWord 256 (3 * 2 ^ 252) = some (.nl 0) := by decide

theorem witness_AcceptSamplesTheWholeCommand :
    (let s : State := { State.reset with inputs := [offerPorts 7], offered := some 7 };
      s.ports.rst = false ∧ s.ports.cmdValid = true ∧ s.busy = false ∧ s.rspValid = false ∧
        s.holdBroken s.ports = false) ∧
    (let s : State := { State.reset with busy := true, rspValid := true, inputs := [offerPorts 7] };
      s.ports.rst = false ∧ s.busy = true ∧ step s = .next (s.tick s.ports)) :=
  ⟨by decide, rfl, rfl, rfl⟩

theorem witness_CompleteWritesWhatExecuteGives :
    (let s : State := { State.reset with busy := true, wait := 1 };
      s.ports.rst = false ∧ s.holdBroken s.ports = false ∧ s.busy = true ∧ s.rspValid = false ∧ s.wait ≠ 0) ∧
    (let s : State := { State.reset with busy := true, wait := 0 };
      s.ports.rst = false ∧ s.holdBroken s.ports = false ∧ s.busy = true ∧ s.rspValid = false ∧ s.wait = 0) := by
  decide

theorem witness_DeliverGivesTheResponseAndFreesTheBlock :
    let s : State := { State.reset with busy := true, rspValid := true, inputs := [takePorts] };
    s.ports.rst = false ∧ s.holdBroken s.ports = false ∧ s.busy = true ∧ s.rspValid = true ∧
      s.ports.rspReady = true := by decide

theorem witness_RegistersWaitForTheHost :
    (let s : State := State.reset;
      s.ports.rst = false ∧ s.holdBroken s.ports = false ∧ s.busy = false ∧ s.rspValid = false ∧
        s.ports.cmdValid = false) ∧
    (let s : State := { State.reset with busy := true, rspValid := true };
      s.ports.rst = false ∧ s.holdBroken s.ports = false ∧ s.busy = true ∧ s.rspValid = true ∧
        s.ports.rspReady = false) := by decide

theorem witness_ResetClearsEveryRegister :
    let s : State := { State.reset with busy := true, inputs := [⟨true, false, 0, false⟩, offerPorts 7] };
    let t := (s.tick s.ports).resetRegisters;
    s.ports.rst = true ∧ step s = .next t ∧ t.ports.rst = false ∧ t.ports.cmdValid = true ∧
      t.holdBroken t.ports = false := ⟨rfl, rfl, rfl, rfl, rfl⟩

theorem witness_StepStopsOnlyForAnUnheldCommand :
    step { State.reset with offered := some 7, inputs := [idlePorts] } = .refused .commandNotHeld := rfl

theorem witness_InterfaceInvariantIsKeptByEveryStep : ∃ t, Inv State.reset ∧ step State.reset = .next t :=
  ⟨State.reset.tick State.reset.ports, ⟨by decide, by decide, by decide, by simp [State.reset], by decide⟩, rfl⟩

theorem witness_ProgramsRunAsAtomicTransactions :
    let s : State := { State.reset with inputs := programInputs 0 [0x3#4 ++ 0#252, 0] ++ [idlePorts] };
    Ready s ∧ s.inputs = programInputs s.accepts [0x3#4 ++ 0#252, 0] ++ [idlePorts] :=
  ⟨⟨rfl, rfl, rfl⟩, rfl⟩

theorem witness_ResponseDependsOnTheCommandAlone :
    let s₁ : State := State.reset.placeCommand 0
    let s₂ : State := { State.reset with busy := true, rspData := 5, inputs := [offerPorts 7] }
    s₁.nextAction s₁.ports = .complete ∧ s₂.nextAction s₂.ports = .complete ∧ s₁.cmdQ = s₂.cmdQ ∧
      (∃ t₁, step s₁ = .next t₁) ∧ (∃ t₂, step s₂ = .next t₂) :=
  ⟨by decide, by decide, rfl, ⟨_, rfl⟩, ⟨_, rfl⟩⟩

theorem witness_CommandsAnswerWhatExecuteGives : decode (0x3#4 ++ 0#252) = .ok (.nl 0) := by decide

theorem witness_ErrorDetailNamesTheField : (executeWith params 0).status ≠ 0 := by decide

/-- An error of each command that has one: NaN and out-of-range operands, `cslen` 9, and a lowercase character. -/
theorem witness_ErrorsAreThoseOfTheCauseTable :
    commandResult params (.nl 0x7FF8000000000000) = .error ⟨.range, .lat, 0⟩ ∧
    commandResult params (.cpr false 0 0x4066900000000000) = .error ⟨.range, .lon, 0⟩ ∧
    commandResult params (.alt false 0xC014000000000000) = .error ⟨.validation, .alt, 0⟩ ∧
    commandResult params (.ident 0 0 0 0 9 0) = .error ⟨.range, .cslen, 0⟩ ∧
    commandResult params (.ident 0 0 0 0 8 0x5A5A5A5A5A5A5A7A) = .error ⟨.validation, .cschar, 7⟩ ∧
    commandResult params (.pos 0 0 0 0 false true false false 0x40B0000000000000 0 0) =
      .error ⟨.range, .alt, 0⟩ := by
  refine ⟨?_, ?_, ?_, ?_, ?_, ?_⟩ <;> decide +kernel

theorem witness_OkDataFillsOnlyItsField :
    (∃ d, commandResult params (.parity 0) = .ok d) ∧ (∃ d, commandResult params (.syndrome 0) = .ok d) ∧
    commandResult params (.nl 0x4056800000000000) = .ok 1 ∧ commandResult params (.cpr false 0 0) = .ok 0 ∧
    commandResult params (.alt true 0) = .ok 0 ∧ (∃ d, commandResult params (.frame 0 0 0) = .ok d) ∧
    commandResult params (.ident 5 0x4840D6 4 0 5 0x4B4C323034000000) = .ok 0x8D4840D6202CCCB0D208204125F9 ∧
    commandResult params (.pos 5 0x40621D 11 0 false false false false 0x40C69F3333333333 0x404A20EBEDFA43FE
      0x400F5ADEA897635E) = .ok 0x8D40621D58C382D690C8AC2863A7 := by
  refine ⟨⟨_, rfl⟩, ⟨_, rfl⟩, ?_, ?_, ?_, ⟨_, rfl⟩, ?_, ?_⟩ <;> decide +kernel

theorem witness_CrcStepXorsOneWindow :
    (List.replicate 14 (0xFF : Byte)).length = 14 ∧ 10 < 11 ∧ 7 < 8 ∧
      (frameOfBytes (List.replicate 14 0xFF)).getLsbD (111 - 8 * 10 - 7) = true := by decide

theorem witness_CrcLawsHold :
    (0x1000005 : Frame).extractLsb' 24 88 = (0x1000006 : Frame).extractLsb' 24 88 ∧
    (0xFFFFFF : Frame).extractLsb' 24 88 = 0 := by decide

/-- At 90 degrees, one binary64 above it, and at a NaN. -/
theorem witness_NlAnswersTheZoneCount :
    latValid 0x4056800000000000 ∧ ¬ latValid 0x4056800000000001 ∧ ¬ latValid 0x7FF8000000000000 :=
  ⟨⟨by decide +kernel, by decide +kernel⟩, fun h => absurd h.2 (by decide +kernel),
    fun h => absurd h.1 (by decide +kernel)⟩

theorem witness_ZoneCountSpecialCases :
    |(1 / 2000000 : Rat)| < 1 / 1000000 ∧ |(-87 : Rat)| = 87 ∧ 87 < |(90 : Rat)| ∧ |(87 : Rat)| ≤ 87 := by
  refine ⟨?_, ?_, ?_, ?_⟩ <;> decide +kernel

theorem witness_ZoneCountCountsTheThresholds : |(-3 : Rat)| ≤ |(4 : Rat)| := by decide +kernel

theorem witness_CprAnswersBothCodes :
    latValid 0xC056800000000000 ∧ lonValid 0x4066800000000000 ∧ ¬ latValid 0x7FF0000000000000 ∧
      ¬ lonValid 0x4066800000000001 :=
  ⟨⟨by decide +kernel, by decide +kernel⟩, ⟨by decide +kernel, by decide +kernel⟩,
    fun h => absurd h.1 (by decide +kernel), fun h => absurd h.2 (by decide +kernel)⟩

theorem witness_ExactResidualIsTheFractionOfAZone :
    ({ params with arith := .exact } : Params).arith = .exact ∧ 0 < 1 := by decide

theorem witness_ScaledResidualFitsSeventeenBitsAndOne :
    |(-180 : Rat)| ≤ 180 ∧ 1 ≤ 60 ∧ 60 ≤ 60 ∧ |(180 : Rat)| ≤ 180 ∧ 1 ≤ 1 ∧ 1 ≤ 60 := by
  refine ⟨?_, ?_, ?_, ?_, ?_, ?_⟩ <;> decide +kernel

theorem witness_FeetKeepTheSignOfMetres : isFinite64 0x8000000000000001 = true ∧ val64 0x8000000000000001 < 0 := by
  refine ⟨?_, ?_⟩ <;> decide +kernel

/-- An infinity; the negative value nearest 0; 4095.5, which rounds to 4096; and the largest accepted value. -/
theorem witness_GnssAltitudeIsRoundedMetres :
    isFinite64 0xFFF0000000000000 = false ∧
    (isFinite64 0x8000000000000001 = true ∧ val64 0x8000000000000001 < 0) ∧
    (isFinite64 0x40AFFF0000000000 = true ∧ 0 ≤ val64 0x40AFFF0000000000 ∧
      4095 < roundInt .even (val64 0x40AFFF0000000000)) ∧
    (isFinite64 0x40AFFEFFFFFFFFFF = true ∧ 0 ≤ val64 0x40AFFEFFFFFFFFFF ∧
      roundInt .even (val64 0x40AFFEFFFFFFFFFF) ≤ 4095) := by
  refine ⟨?_, ⟨?_, ?_⟩, ⟨?_, ?_, ?_⟩, ?_, ?_, ?_⟩ <;> decide +kernel

/-- The vectors at the boundaries: ALT15 (+∞), ALT1 (0 ft), ALT9 (50175 ft), ALT14 (126700 ft). -/
theorem witness_BarometricAltitudeIsChosenByFeet :
    isFinite64 0x7FF8000000000000 = false ∧
    (isFinite64 0xC014000000000000 = true ∧ val64 0xC014000000000000 < 0) ∧
    (isFinite64 0x7FE1CCF385EBC8A0 = true ∧ 0 ≤ val64 0x7FE1CCF385EBC8A0 ∧
      feet .binary64 (val64 0x7FE1CCF385EBC8A0) = .posInf) ∧
    (isFinite64 0 = true ∧ 0 ≤ val64 0 ∧ feet .binary64 (val64 0) = .fin 0) ∧
    (isFinite64 0x40CDDEAB851EB852 = true ∧ 0 ≤ val64 0x40CDDEAB851EB852 ∧
      feet .binary64 (val64 0x40CDDEAB851EB852) = .fin 50175) ∧
    (isFinite64 0x40E2DB451EB851EC = true ∧ 0 ≤ val64 0x40E2DB451EB851EC ∧
      feet .binary64 (val64 0x40E2DB451EB851EC) = .fin 126700) := by
  refine ⟨?_, ⟨?_, ?_⟩, ⟨?_, ?_, ?_⟩, ⟨?_, ?_, ?_⟩, ⟨?_, ?_, ?_⟩, ?_, ?_, ?_⟩ <;> decide +kernel

/-- 0 ft and the last binary64 below 50175 ft; under `EXACT` also a number of feet that is no binary64 value. -/
theorem witness_Q1CountFitsElevenBits :
    (feetValue .binary64 0 ∧ (0 : Rat) ≤ 0 ∧ (0 : Rat) < 50175) ∧
    (feetValue .binary64 (val64 0x40E87FDFFFFFFFFF) ∧ 0 ≤ val64 0x40E87FDFFFFFFFFF ∧
      val64 0x40E87FDFFFFFFFFF < 50175) ∧
    (feetValue .exact (150524 / 3) ∧ (0 : Rat) ≤ 150524 / 3 ∧ (150524 / 3 : Rat) < 50175) := by
  refine ⟨⟨.inr ⟨0, ?_, ?_⟩, ?_, ?_⟩, ⟨.inr ⟨_, ?_, rfl⟩, ?_, ?_⟩, .inl rfl, ?_, ?_⟩ <;> decide +kernel

theorem witness_GrayCodesOfConsecutiveIntegersDifferInOneBit : 255 < 256 ∧ 4 ≤ 4 := by decide

/-- 50175 ft, and 126700 ft with the binary64 below it; under `EXACT` also a number of feet that is no binary64
value. -/
theorem witness_Q0CountersStayInRange :
    (feetValue params.arith 50175 ∧ (50175 : Rat) ≤ 50175) ∧
    (feetValue params.arith 126700 ∧ (50175 : Rat) ≤ 126700) ∧
    (feetValue params.arith (val64 0x40FEEEBFFFFFFFFF) ∧ 50175 ≤ val64 0x40FEEEBFFFFFFFFF ∧
      val64 0x40FEEEBFFFFFFFFF < 126700) ∧
    (feetValue ({ params with arith := .exact } : Params).arith (380099 / 3) ∧ (50175 : Rat) ≤ 380099 / 3 ∧
      (380099 / 3 : Rat) < 126700) := by
  refine ⟨⟨.inr ⟨0x40E87FE000000000, ?_, ?_⟩, ?_⟩, ⟨.inr ⟨0x40FEEEC000000000, ?_, ?_⟩, ?_⟩,
    ⟨.inr ⟨_, ?_, rfl⟩, ?_, ?_⟩, .inl rfl, ?_, ?_⟩ <;> decide +kernel

theorem witness_EveryQ0MapKeepsAllGrayBits :
    params.wellFormed = true ∧ interleave params.q0Map 0x80 1 = interleave params.q0Map 0x80 1 := by decide

/-- Eight valid characters, a length of 9, and the only invalid character last (index 7) or first (index 0). -/
theorem witness_IdentAnswersTheIdentificationFrame :
    callsignValid 8 0x4B4C323034202020 ∧ callsignValid 0 0 ∧ 8 < (9 : BitVec 4).toNat ∧
    (7 < (8 : BitVec 4).toNat ∧ (8 : BitVec 4).toNat ≤ 8 ∧ charCode (csByte 0x5A5A5A5A5A5A5A7A 7) = none ∧
      ∀ j < 7, charCode (csByte 0x5A5A5A5A5A5A5A7A j) ≠ none) ∧
    (0 < (1 : BitVec 4).toNat ∧ charCode (csByte 0 0) = none) :=
  ⟨⟨by decide, by decide⟩, ⟨by decide, by decide⟩, by decide, by decide, by decide⟩

theorem witness_CallsignBytesPastTheLengthAreIgnored :
    ∀ i < (5 : BitVec 4).toNat, i < 8 → csByte 0x4B4C323034000000 i = csByte 0x4B4C323034212121 i := by decide

theorem witness_PosAnswersThePositionFrame :
    altEncode params 0x40B0000000000000 true = .error ⟨.range, .alt, 0⟩ ∧
    altEncode params 0x40C69F3333333333 false = .ok (.q1, 0xC38) ∧
    latValid 0x404A20EBEDFA43FE ∧ lonValid 0x400F5ADEA897635E ∧ ¬ latValid 0x4057C00000000000 ∧
    ¬ lonValid 0x4069000000000000 :=
  ⟨by decide +kernel, by decide +kernel, ⟨by decide +kernel, by decide +kernel⟩,
    ⟨by decide +kernel, by decide +kernel⟩, fun h => absurd h.2 (by decide +kernel),
    fun h => absurd h.2 (by decide +kernel)⟩

/-- P2's parts. -/
theorem witness_PosIsTheFrameOfItsParts :
    commandResult params (.alt false 0x40C69F3333333333) = .ok 0x1C38 ∧
    commandResult params (.cpr false 0x404A20EBEDFA43FE 0x400F5ADEA897635E) = .ok 0x2D690C8AC := by
  refine ⟨?_, ?_⟩ <;> decide +kernel

theorem witness_ProducedFramesKeepTheGuarantees :
    producesFrame (.frame 5 0x4840D6 0) = true ∧ addressOf (.frame 5 0x4840D6 0) = some (5, 0x4840D6) ∧
    ∃ m, commandResult params (.frame 5 0x4840D6 0) = .ok m := ⟨rfl, rfl, _, rfl⟩

/-- An ordinary number, and the greatest binary64 value. -/
theorem witness_RoundingIsToNearestTiesToEven :
    |(1 / 3 : Rat)| < overflowMagnitude ∧ |val64 0x7FEFFFFFFFFFFFFF| < overflowMagnitude ∧
      isFinite64 0x7FEFFFFFFFFFFFFF = true := by
  refine ⟨?_, ?_, ?_⟩ <;> decide +kernel

/-- ALT15's altitude overflows; the altitude a quarter as large does not. -/
theorem witness_OnlyHugeAltitudesOverflowToInfinity :
    overflowMagnitude * val64 0x3FD381D7DBF487FD ≤ val64 0x7FE1CCF385EBC8A0 ∧
    |val64 0x7FC1CCF385EBC8A0| < overflowMagnitude * val64 0x3FD381D7DBF487FD ∧
    |val64 0x7FEFFFFFFFFFFFFF| < overflowMagnitude := by
  refine ⟨?_, ?_, ?_⟩ <;> decide +kernel

theorem witness_RoundGivesTheNearestInteger : Int.fract (5 / 2 : Rat) = 1 / 2 := by decide +kernel

end Sys2Proof.Tests
end

section
/-! PROOFS. `round` (R12): what it answers at a tie, and that it is nearest. -/

namespace Sys2Proof.Machine

theorem roundInt_even_of_tie {x : Rat} (h : Int.fract x = 1 / 2) :
    roundInt .even x = if ⌊x⌋ % 2 = 0 then ⌊x⌋ else ⌊x⌋ + 1 := by
  rw [Int.fract] at h
  simp [roundInt, h]

theorem roundInt_up_of_tie {x : Rat} (h : Int.fract x = 1 / 2) : roundInt .up x = ⌊x⌋ + 1 := by
  rw [Int.fract] at h
  simp [roundInt, h]

theorem roundInt_even_mod_two_of_tie {x : Rat} (h : Int.fract x = 1 / 2) : roundInt .even x % 2 = 0 := by
  rw [roundInt_even_of_tie h]
  split_ifs <;> omega

theorem abs_sub_roundInt_le (tie : RoundTie) (x : Rat) : |x - roundInt tie x| ≤ 1 / 2 := by
  obtain ⟨h₁, h₂⟩ := roundInt_near tie x
  rw [abs_le]
  constructor <;> linarith

theorem roundInt_up_eq_floor (x : Rat) : roundInt .up x = ⌊x + 1 / 2⌋ := by
  have hx := Int.floor_add_fract x
  have h₀ := Int.fract_nonneg x
  have h₁ := Int.fract_lt_one x
  symm
  rw [Int.floor_eq_iff]
  by_cases ht : Int.fract x = 1 / 2
  · rw [roundInt_up_of_tie ht]
    push_cast
    constructor <;> linarith
  · rcases roundInt_cases .up x with ⟨h, hf⟩ | ⟨h, hf⟩ <;> rw [h]
    · have := lt_of_le_of_ne hf ht
      constructor <;> linarith
    · push_cast
      constructor <;> linarith

/-- Where `round` moves a number by a half, the number is a tie. -/
theorem fract_eq_half_of_abs_sub_roundInt {tie : RoundTie} {x : Rat} (h : |x - roundInt tie x| = 1 / 2) :
    Int.fract x = 1 / 2 := by
  have hx := Int.floor_add_fract x
  have h₀ := Int.fract_nonneg x
  have h₁ := Int.fract_lt_one x
  rcases roundInt_cases tie x with ⟨hr, -⟩ | ⟨hr, -⟩ <;> rw [hr] at h
  · rwa [show x - ⌊x⌋ = Int.fract x from rfl, abs_of_nonneg h₀] at h
  · push_cast at h
    rw [abs_of_neg (by linarith)] at h
    linarith

/-- No integer is nearer to `x` than `round(x)`, and another as near makes `round(x)` even. -/
theorem roundInt_even_nearest (x : Rat) (m : Int) :
    |x - roundInt .even x| ≤ |x - m| ∧
      (|x - roundInt .even x| = |x - m| → m ≠ roundInt .even x → roundInt .even x % 2 = 0) := by
  by_cases hm : m = roundInt .even x
  · simp [hm]
  · have hr := abs_sub_roundInt_le .even x
    have hone : (1 : Rat) ≤ |(roundInt .even x : Rat) - m| := by
      exact_mod_cast Int.one_le_abs (sub_ne_zero.mpr (Ne.symm hm))
    have htri : |(roundInt .even x : Rat) - m| ≤ |x - roundInt .even x| + |x - m| := by
      rw [abs_sub_comm x (roundInt .even x : Rat)]
      exact abs_sub_le _ _ _
    refine ⟨by linarith, fun he _ => roundInt_even_mod_two_of_tie ?_⟩
    exact fract_eq_half_of_abs_sub_roundInt (tie := .even) (by linarith)

theorem abs_roundInt_even (x : Rat) : |roundInt .even x| = roundInt .even |x| := by
  rcases le_total 0 x with h | h
  · rw [abs_of_nonneg h, abs_of_nonneg (roundInt_nonneg _ h)]
  · have h' := roundInt_nonneg .even (neg_nonneg.mpr h)
    rw [abs_of_nonpos h, ← abs_neg, ← roundInt_even_neg, abs_of_nonneg h']

/-- Settles O56: within a half (R12), `floor(x + 1/2)` under `UP`, even at a tie under `EVEN`. -/
theorem roundGivesTheNearestInteger : Obligations.RoundGivesTheNearestInteger := fun x =>
  ⟨fun tie => abs_sub_roundInt_le tie x, roundInt_up_eq_floor x, roundInt_even_mod_two_of_tie⟩

end Sys2Proof.Machine
end

section
/-! PROOFS. The Q0 interleave (R79): each bit of the field is one bit of the list it is written from. -/

namespace Sys2Proof.Machine

theorem fieldOfBits_concat (bits : List Bool) (b : Bool) :
    fieldOfBits (bits ++ [b]) = (fieldOfBits bits <<< 1) ||| (BitVec.ofBool b).setWidth 12 :=
  List.foldl_concat ..

/-- Bit `k` of a field is the `k`-th of its bits from the end (R10). -/
theorem getLsbD_fieldOfBits_reverse (bits : List Bool) (k : Nat) (hk : k < 12) :
    (fieldOfBits bits.reverse).getLsbD k = bits.getD k false := by
  induction bits generalizing k with
  | nil => simp [fieldOfBits]
  | cons b bits ih =>
    rw [List.reverse_cons, fieldOfBits_concat]
    cases k with
    | zero => simp
    | succ k =>
      have hb := ih k (by omega)
      rw [BitVec.getLsbD_or, BitVec.getLsbD_shiftLeft]
      simpa [hk] using hb

theorem getLsbD_fieldOfBits (bits : List Bool) (k : Nat) (hk : k < 12) :
    (fieldOfBits bits).getLsbD k = bits.reverse.getD k false := by
  simpa using getLsbD_fieldOfBits_reverse bits.reverse k hk

/-- Twelve bits are determined by the field they are written in. -/
theorem fieldOfBits_injective {bits₁ bits₂ : List Bool} (h₁ : bits₁.length = 12) (h₂ : bits₂.length = 12)
    (h : fieldOfBits bits₁ = fieldOfBits bits₂) : bits₁ = bits₂ := by
  rw [← List.reverse_inj]
  refine List.ext_getElem (by simp [h₁, h₂]) fun k hk₁ hk₂ => ?_
  have hk : k < 12 := by simpa [h₁] using hk₁
  have hb := getLsbD_fieldOfBits bits₁ k hk
  rw [h, getLsbD_fieldOfBits bits₂ k hk] at hb
  rwa [List.getD_eq_getElem _ _ hk₁, List.getD_eq_getElem _ _ hk₂, eq_comm] at hb

theorem length_q0Map_of_wellFormed {p : Params} (h : p.wellFormed = true) : p.q0Map.length = 11 := by
  simp only [Params.wellFormed, Bool.and_eq_true, beq_iff_eq] at h
  exact h.1

theorem mem_grayBits (b : GrayBit) : b ∈ grayBits := by
  cases b with
  | g500 i => revert i; decide
  | g100 i => revert i; decide

/-- A well-formed `Q0_MAP` names every Gray bit (R79). -/
theorem mem_q0Map_of_wellFormed {p : Params} (h : p.wellFormed = true) (b : GrayBit) : b ∈ p.q0Map := by
  simp only [Params.wellFormed, Bool.and_eq_true, List.all_eq_true, List.contains_iff_mem] at h
  exact h.2 b (mem_grayBits b)

/-- The Q bit of an interleave is 0 (R79). -/
theorem getLsbD_interleave_four {m : List GrayBit} (hm : m.length = 11) (g : BitVec 8) (h : BitVec 3) :
    (interleave m g h).getLsbD 4 = false := by
  unfold interleave
  rw [getLsbD_fieldOfBits _ _ (by decide)]
  simp [hm]

/-- Two interleaves by one map that agree read the same value for every Gray bit the map names. -/
theorem grayBitOf_eq_of_interleave_eq {m : List GrayBit} (hm : m.length = 11) {g₁ g₂ : BitVec 8} {h₁ h₂ : BitVec 3}
    (h : interleave m g₁ h₁ = interleave m g₂ h₂) {b : GrayBit} (hb : b ∈ m) :
    grayBitOf g₁ h₁ b = grayBitOf g₂ h₂ b := by
  have hbits := fieldOfBits_injective (by simp [hm]) (by simp [hm]) h
  obtain ⟨hfront, hdrop⟩ := List.append_inj hbits (by simp)
  obtain ⟨htake, -⟩ := List.append_inj hfront (by simp)
  have hmap : m.map (grayBitOf g₁ h₁) = m.map (grayBitOf g₂ h₂) := by
    rw [← List.take_append_drop 7 (m.map (grayBitOf g₁ h₁)), htake, hdrop, List.take_append_drop]
  exact List.map_inj_left.mp hmap b hb

/-- Settles O45: the Q bit is 0 under every map, and a permutation names all Gray bits. -/
theorem everyQ0MapKeepsAllGrayBits : Obligations.EveryQ0MapKeepsAllGrayBits := by
  intro p hp
  have hm := length_q0Map_of_wellFormed hp
  refine ⟨getLsbD_interleave_four hm, fun g₁ g₂ h₁ h₂ h => ?_⟩
  have hbit := fun b => grayBitOf_eq_of_interleave_eq hm h (mem_q0Map_of_wellFormed hp b)
  exact ⟨BitVec.eq_of_getLsbD_eq fun i hi => hbit (.g500 ⟨i, hi⟩),
    BitVec.eq_of_getLsbD_eq fun i hi => hbit (.g100 ⟨i, hi⟩)⟩

end Sys2Proof.Machine
end

section
/-! PROOFS. Overflow (R12, R72): the magnitude from which on a rounding reaches `2^1024`. -/

namespace Sys2Proof.Machine
open Sys2Proof.Safety

/-- A magnitude below a power of two has an exponent below that power's. -/
theorem floorLog2_lt_of_lt_pow2 {q : Rat} {k : Int} (hq : 0 < q) (h : q < pow2 k) : floorLog2 q < k :=
  pow2_lt_pow2.mp ((floorLog2_spec hq).1.trans_lt h)

theorem overflowMagnitude_eq_pow2 : overflowMagnitude = pow2 1024 - pow2 970 := by
  simp only [overflowMagnitude, pow2_eq_zpow, zpow_ofNat]

theorem overflowMagnitude_pos : 0 < overflowMagnitude := by
  rw [overflowMagnitude_eq_pow2, sub_pos, pow2_lt_pow2]
  decide

/-- The overflow magnitude is a tie, which goes to the even neighbour `2^1024`. -/
theorem round64_overflowMagnitude : round64 overflowMagnitude = pow2 1024 := by decide +kernel

/-- Below the overflow magnitude the spacing is at most `2^971`. -/
theorem ulpExp_le_of_lt_overflowMagnitude {q : Rat} (hq : q ≠ 0) (h : |q| < overflowMagnitude) : ulpExp q ≤ 971 := by
  have hlt : |q| < pow2 1024 := by
    rw [overflowMagnitude_eq_pow2] at h
    exact h.trans (sub_lt_self _ (pow2_pos 970))
  have hlog := floorLog2_lt_of_lt_pow2 (abs_pos.mpr hq) hlt
  unfold ulpExp
  omega

/-- A magnitude below the overflow magnitude moves by at most half of `2^971`, so it stays below `2^1024`. -/
theorem abs_round64_lt_pow2 {q : Rat} (h : |q| < overflowMagnitude) : |round64 q| < pow2 1024 := by
  by_cases hq : q = 0
  · simpa [hq] using pow2_pos 1024
  · have hu := pow2_le_pow2.mpr (ulpExp_le_of_lt_overflowMagnitude hq h)
    have htri : |round64 q| ≤ |round64 q - q| + |q| := by simpa using abs_add_le (round64 q - q) q
    have hhalf : pow2 971 = 2 * pow2 970 := pow2_add 1 970
    rw [overflowMagnitude_eq_pow2] at h
    have herr := round64_error q
    linarith

theorem pow2_le_round64_iff (q : Rat) : pow2 1024 ≤ round64 q ↔ overflowMagnitude ≤ q := by
  constructor
  · intro h
    by_contra hlt
    rcases le_total 0 q with hq | hq
    · have := abs_round64_lt_pow2 (q := q) (by rwa [abs_of_nonneg hq, ← not_le])
      exact absurd h (not_le.mpr ((le_abs_self _).trans_lt this))
    · have hn := round64_nonneg (neg_nonneg.mpr hq)
      rw [round64_neg] at hn
      linarith [pow2_pos 1024]
  · intro h
    rw [← round64_overflowMagnitude]
    exact round64_mono overflowMagnitude_pos.le h

theorem round64_le_neg_pow2_iff (q : Rat) : round64 q ≤ -pow2 1024 ↔ q ≤ -overflowMagnitude := by
  rw [le_neg, ← round64_neg, pow2_le_round64_iff, le_neg]

@[simp] theorem flNum_exact (q : Rat) : flNum .exact q = .fin q := rfl

/-- What a rounding with overflow answers, by its argument (R12). -/
theorem flNum_binary64 (q : Rat) : flNum .binary64 q =
    if overflowMagnitude ≤ q then .posInf else if q ≤ -overflowMagnitude then .negInf else .fin (round64 q) := by
  simp only [flNum, pow2_le_round64_iff, round64_le_neg_pow2_iff]

theorem flNum_binary64_eq_posInf_iff (q : Rat) : flNum .binary64 q = .posInf ↔ overflowMagnitude ≤ q := by
  rw [flNum_binary64]
  split_ifs with h₁ h₂ <;> simp [h₁]

theorem flNum_binary64_eq_negInf_iff (q : Rat) : flNum .binary64 q = .negInf ↔ q ≤ -overflowMagnitude := by
  have hpos := overflowMagnitude_pos
  rw [flNum_binary64]
  split_ifs with h₁ h₂
  · simp only [false_iff, not_le]
    linarith
  · simpa using h₂
  · simpa using h₂

theorem flNum_binary64_of_lt {q : Rat} (h : |q| < overflowMagnitude) : flNum .binary64 q = .fin (round64 q) := by
  obtain ⟨h₁, h₂⟩ := abs_lt.mp h
  rw [flNum_binary64, if_neg (not_le.mpr h₂), if_neg (not_le.mpr h₁)]

/-- The binary64 constant 0.3048 of R72 is positive. -/
theorem metresPerFoot_pos : 0 < val64 0x3FD381D7DBF487FD := by decide +kernel

theorem feet_exact (m : Rat) : feet .exact m = .fin (m / (381 / 1250)) := by
  rw [div_div_eq_mul_div]
  rfl

theorem feet_binary64 (m : Rat) : feet .binary64 m = flNum .binary64 (m / val64 0x3FD381D7DBF487FD) := rfl

/-- Settles O57: the rounding reaches `2^1024` exactly from the overflow magnitude on, and the feet are a rounded
quotient by a positive constant. -/
theorem onlyHugeAltitudesOverflowToInfinity : Obligations.OnlyHugeAltitudesOverflowToInfinity := by
  refine ⟨fun q => ⟨flNum_exact q, flNum_binary64_eq_posInf_iff q, flNum_binary64_eq_negInf_iff q,
    flNum_binary64_of_lt⟩, fun m => ⟨feet_exact m, ?_, fun h => ?_⟩⟩
  · rw [feet_binary64, flNum_binary64_eq_posInf_iff, le_div_iff₀ metresPerFoot_pos]
  · rw [feet_binary64]
    apply flNum_binary64_of_lt
    rwa [abs_div, abs_of_pos metresPerFoot_pos, div_lt_iff₀ metresPerFoot_pos]

end Sys2Proof.Machine
end

section
/-! PROOFS. Rounding to binary64 (R12): the finite values lie on the grid of the spacing or below it, the rounding is
nearest among them, and it has a pattern. -/

namespace Sys2Proof.Machine
open Sys2Proof.Safety

theorem pow2_natCast (k : Nat) : pow2 k = ((2 ^ k : Int) : Rat) := by
  rw [pow2_eq_zpow, zpow_natCast]
  push_cast
  rfl

theorem pow2_eq_intCast_mul {u e : Int} (h : u ≤ e) : pow2 e = ((2 ^ (e - u).toNat : Int) : Rat) * pow2 u := by
  rw [← pow2_eq_intCast (by omega), ← pow2_add, sub_add_cancel]

theorem pow2_add_natCast (u : Int) (k : Nat) : pow2 (u + k) = ((2 ^ k : Int) : Rat) * pow2 u := by
  rw [pow2_add, pow2_natCast, mul_comm]

/-- A magnitude is a whole number below `2^53` of its spacing (R31). -/
theorem magnitude64_eq_multiple (f : Binary64) :
    ∃ (n : Nat) (e : Int), -1074 ≤ e ∧ n < 2 ^ 53 ∧ magnitude64 f = n * pow2 e := by
  have hF : fractionOf f < 2 ^ 52 := (f.extractLsb' 0 52).isLt
  unfold magnitude64
  split_ifs with h0
  · exact ⟨_, -1074, le_rfl, by omega, rfl⟩
  · exact ⟨_, _, by omega, by omega, rfl⟩

theorem val64_eq_multiple (f : Binary64) :
    ∃ k e : Int, -1074 ≤ e ∧ |k| < 2 ^ 53 ∧ val64 f = k * pow2 e := by
  obtain ⟨n, e, he, hn, hv⟩ := magnitude64_eq_multiple f
  have hn' : |(n : Int)| < 2 ^ 53 := by
    rw [Nat.abs_cast]
    exact_mod_cast hn
  unfold val64
  split_ifs
  · exact ⟨-n, e, he, by rwa [abs_neg], by rw [hv, Int.cast_neg, Int.cast_natCast, neg_mul]⟩
  · exact ⟨n, e, he, hn', by rw [hv, Int.cast_natCast]⟩

/-- Against a grid of spacing `2^u` a binary64 value is on the grid, or below the magnitude `2^(u+52)` from which on
binary64 has that spacing. -/
theorem val64_on_grid_or_small (f : Binary64) (u : Int) :
    (∃ k : Int, val64 f = k * pow2 u) ∨ (-1074 < u ∧ |val64 f| < pow2 (u + 52)) := by
  obtain ⟨k, e, he, hk, hv⟩ := val64_eq_multiple f
  rcases le_or_gt u e with h | h
  · refine .inl ⟨k * 2 ^ (e - u).toNat, ?_⟩
    rw [hv, pow2_eq_intCast_mul h]
    push_cast
    ring
  · refine .inr ⟨by omega, ?_⟩
    have hk' : |(k : Rat)| < pow2 53 := by
      rw [show pow2 53 = ((2 ^ 53 : Int) : Rat) from pow2_natCast 53]
      exact_mod_cast hk
    calc |val64 f| = |(k : Rat)| * pow2 e := by rw [hv, abs_mul, abs_of_pos (pow2_pos e)]
      _ < pow2 53 * pow2 e := mul_lt_mul_of_pos_right hk' (pow2_pos e)
      _ = pow2 (53 + e) := (pow2_add _ _).symm
      _ ≤ pow2 (u + 52) := pow2_le_pow2.mpr (by omega)

/-- The rounding in units of the spacing at its argument; at 0 too. -/
theorem round64_eq (q : Rat) : round64 q = (roundInt .even (q / pow2 (ulpExp q)) : Rat) * pow2 (ulpExp q) := by
  by_cases h : q = 0
  · have h0 := roundInt_intCast .even 0
    rw [Int.cast_zero] at h0
    simp [h, h0]
  · exact round64_of_ne_zero h

theorem ulpExp_ge (q : Rat) : -1074 ≤ ulpExp q := le_max_right _ _

/-- Above the finest spacing a number has at least 53 significant bits in units of its spacing. -/
theorem pow2_le_abs_of_ulpExp {q : Rat} (hq : q ≠ 0) (h : -1074 < ulpExp q) : pow2 (ulpExp q + 52) ≤ |q| := by
  have hu : ulpExp q + 52 = floorLog2 |q| := by
    unfold ulpExp at h ⊢
    omega
  rw [hu]
  exact (floorLog2_spec (abs_pos.mpr hq)).1

theorem abs_lt_pow2_ulpExp {q : Rat} (hq : q ≠ 0) : |q| < pow2 (ulpExp q + 53) := by
  refine (floorLog2_spec (abs_pos.mpr hq)).2.trans_le (pow2_le_pow2.mpr ?_)
  unfold ulpExp
  omega

/-- On the grid of the spacing at `q` no number is nearer to `q` than its rounding, and at a tie the rounding is an
even number of spacings. -/
theorem round64_nearest_on_grid (q : Rat) (m : Int) :
    |q - round64 q| ≤ |q - m * pow2 (ulpExp q)| ∧
      (|q - round64 q| = |q - m * pow2 (ulpExp q)| → m * pow2 (ulpExp q) ≠ round64 q →
        roundInt .even (q / pow2 (ulpExp q)) % 2 = 0) := by
  have hp := pow2_pos (ulpExp q)
  obtain ⟨hle, htie⟩ := roundInt_even_nearest (q / pow2 (ulpExp q)) m
  have hscale : ∀ k : Int, |q - k * pow2 (ulpExp q)| = |q / pow2 (ulpExp q) - k| * pow2 (ulpExp q) := fun k => by
    rw [← abs_of_pos hp, ← abs_mul, abs_of_pos hp, sub_mul, div_mul_cancel₀ q hp.ne']
  rw [round64_eq, hscale, hscale]
  refine ⟨mul_le_mul_of_nonneg_right hle hp.le, fun he hne => htie (mul_right_cancel₀ hp.ne' he) ?_⟩
  rintro rfl
  exact hne rfl

/-- A number below the magnitude `2^(u+52)` that `q` reaches, `u` the spacing exponent at `q`, is further from `q`
than the rounding of `q`. -/
theorem round64_nearer_than_small {q v : Rat} (hq : q ≠ 0) (hu : -1074 < ulpExp q) (hv : |v| < pow2 (ulpExp q + 52)) :
    |q - round64 q| < |q - v| := by
  have hP := pow2_le_abs_of_ulpExp hq hu
  have hgrid : pow2 (ulpExp q + 52) = ((2 ^ 52 : Int) : Rat) * pow2 (ulpExp q) :=
    pow2_add_natCast _ 52
  have hfar : |q| - |v| ≤ |q - v| := abs_sub_abs_le_abs_sub q v
  have hnear : |q - round64 q| ≤ |q| - pow2 (ulpExp q + 52) := by
    rcases le_total 0 q with h | h
    · have := (round64_nearest_on_grid q (2 ^ 52)).1
      rw [← hgrid] at this
      rw [abs_of_nonneg h] at hP ⊢
      rwa [abs_of_nonneg (sub_nonneg.mpr hP)] at this
    · have := (round64_nearest_on_grid q (-2 ^ 52)).1
      rw [Int.cast_neg, neg_mul, ← hgrid] at this
      rw [abs_of_nonpos h] at hP ⊢
      rw [abs_of_nonpos (a := q - -_) (by linarith)] at this
      linarith
  linarith

/-- No finite value is nearer to `q` than its rounding. -/
theorem round64_nearest (q : Rat) (f : Binary64) :
    |q - round64 q| ≤ |q - val64 f| ∧
      (|q - round64 q| = |q - val64 f| → val64 f ≠ round64 q → roundInt .even (q / pow2 (ulpExp q)) % 2 = 0) := by
  by_cases hq : q = 0
  · subst hq
    simp only [round64_zero, sub_zero, abs_zero, abs_nonneg, true_and]
    intro h hne
    exact absurd (by simpa using h.symm) hne
  · rcases val64_on_grid_or_small f (ulpExp q) with ⟨m, hm⟩ | ⟨hu, hv⟩
    · rw [hm]
      exact round64_nearest_on_grid q m
    · have hlt := round64_nearer_than_small hq hu hv
      exact ⟨hlt.le, fun he => absurd he hlt.ne⟩

/-- The pattern of a sign, a biased exponent and a fraction (R31). -/
def binary64Of (neg : Bool) (E F : Nat) : Binary64 := BitVec.ofBool neg ++ BitVec.ofNat 11 E ++ BitVec.ofNat 52 F

section
variable (neg : Bool) {E F : Nat}

theorem exponentOf_binary64Of (hE : E < 2048) : exponentOf (binary64Of neg E F) = E := by
  unfold exponentOf binary64Of
  rw [BitVec.extractLsb'_append_eq_of_le le_rfl, Nat.sub_self, BitVec.extractLsb'_append_eq_right, BitVec.toNat_ofNat,
    Nat.mod_eq_of_lt hE]

theorem fractionOf_binary64Of (hF : F < 2 ^ 52) : fractionOf (binary64Of neg E F) = F := by
  unfold fractionOf binary64Of
  rw [BitVec.extractLsb'_append_eq_right, BitVec.toNat_ofNat, Nat.mod_eq_of_lt hF]

theorem isFinite64_binary64Of (hE : E < 2047) : isFinite64 (binary64Of neg E F) = true := by
  simp only [isFinite64, exponentOf_binary64Of neg (hE.trans (by decide)), bne_iff_ne]
  exact hE.ne

theorem getLsbD_binary64Of_sign : (binary64Of neg E F).getLsbD 63 = neg := by
  unfold binary64Of
  rw [getLsbD_append_of_le (by decide), getLsbD_append_of_le (by decide)]
  simp

theorem getLsbD_binary64Of_zero (hF : F % 2 = 0) : (binary64Of neg E F).getLsbD 0 = false := by
  unfold binary64Of
  rw [getLsbD_append_of_lt (by decide), BitVec.getLsbD_ofNat, Nat.testBit_zero, hF]
  rfl

theorem magnitude64_binary64Of_subnormal (hF : F < 2 ^ 52) : magnitude64 (binary64Of neg 0 F) = F * pow2 (-1074) := by
  rw [magnitude64, exponentOf_binary64Of neg (by decide), if_pos rfl, fractionOf_binary64Of neg hF]

theorem magnitude64_binary64Of_normal (h0 : E ≠ 0) (hE : E < 2048) (hF : F < 2 ^ 52) :
    magnitude64 (binary64Of neg E F) = ((2 ^ 52 + F : Nat) : Rat) * pow2 ((E : Int) - 1075) := by
  rw [magnitude64, exponentOf_binary64Of neg hE, if_neg h0, fractionOf_binary64Of neg hF]

end

/-- The exponent of a number of spacings that stays below `2^1024`. -/
theorem add_lt_of_mul_pow2_lt {n k : Nat} {u : Int} (hk : 2 ^ k ≤ n) (h : n * pow2 u < pow2 1024) :
    (k : Int) + u < 1024 := by
  have hk' : pow2 k ≤ n := by
    rw [pow2_natCast]
    exact_mod_cast hk
  rw [← pow2_lt_pow2, pow2_add]
  exact (mul_le_mul_of_nonneg_right hk' (pow2_pos u).le).trans_lt h

/-- Up to `2^53` spacings are the magnitude of a finite pattern, from `2^52` on where the spacing is not the finest;
its last fraction bit is 0 where their number is even. -/
theorem exists_magnitude64_eq (neg : Bool) {n : Nat} {u : Int} (hu : -1074 ≤ u) (hn : n ≤ 2 ^ 53)
    (hlow : -1074 < u → 2 ^ 52 ≤ n) (hlt : n * pow2 u < pow2 1024) :
    ∃ b : Binary64, isFinite64 b = true ∧ b.getLsbD 63 = neg ∧ magnitude64 b = n * pow2 u ∧
      (n % 2 = 0 → b.getLsbD 0 = false) := by
  rcases lt_or_ge n (2 ^ 52) with hsub | hnorm
  · obtain rfl : u = -1074 := by omega
    exact ⟨binary64Of neg 0 n, isFinite64_binary64Of neg (by decide), getLsbD_binary64Of_sign neg,
      magnitude64_binary64Of_subnormal neg hsub, getLsbD_binary64Of_zero neg⟩
  · rcases lt_or_eq_of_le hn with hn | rfl
    · have hE := add_lt_of_mul_pow2_lt hnorm hlt
      refine ⟨binary64Of neg (u + 1075).toNat (n - 2 ^ 52), isFinite64_binary64Of neg (by omega),
        getLsbD_binary64Of_sign neg, ?_, fun h => getLsbD_binary64Of_zero neg (by omega)⟩
      rw [magnitude64_binary64Of_normal neg (by omega) (by omega) (by omega), Nat.add_sub_cancel' hnorm,
        show ((u + 1075).toNat : Int) - 1075 = u by omega]
    · have hE := add_lt_of_mul_pow2_lt le_rfl hlt
      refine ⟨binary64Of neg (u + 1076).toNat 0, isFinite64_binary64Of neg (by omega),
        getLsbD_binary64Of_sign neg, ?_, fun _ => getLsbD_binary64Of_zero neg rfl⟩
      have hdouble : pow2 ((u + 1076).toNat - 1075) = 2 * pow2 u := by
        rw [show ((u + 1076).toNat : Int) - 1075 = 1 + u by omega, pow2_add]
        rfl
      rw [magnitude64_binary64Of_normal neg (by omega) (by omega) (by decide), hdouble]
      push_cast
      ring

/-- `exists_magnitude64_eq` with the sign of the number of spacings. -/
theorem exists_val64_eq {k u : Int} (hu : -1074 ≤ u) (hk : |k| ≤ 2 ^ 53) (hlow : -1074 < u → 2 ^ 52 ≤ |k|)
    (hlt : |(k : Rat) * pow2 u| < pow2 1024) :
    ∃ b : Binary64, isFinite64 b = true ∧ val64 b = k * pow2 u ∧ (k % 2 = 0 → b.getLsbD 0 = false) := by
  rw [Int.abs_eq_natAbs] at hk hlow
  have hcast : ((k.natAbs : Nat) : Rat) = |(k : Rat)| := by
    rw [Nat.cast_natAbs, Int.cast_abs]
  obtain ⟨b, hfin, hsign, hmag, heven⟩ := exists_magnitude64_eq (decide (k < 0)) (n := k.natAbs) hu (by omega)
    (by omega) (by rwa [hcast, ← abs_of_pos (pow2_pos u), ← abs_mul])
  refine ⟨b, hfin, ?_, fun h => heven (by omega)⟩
  rw [val64, hsign, hmag, hcast]
  by_cases hneg : k < 0
  · have : (k : Rat) < 0 := by exact_mod_cast hneg
    simp [hneg, abs_of_neg this]
  · have : (0 : Rat) ≤ k := by exact_mod_cast not_lt.mp hneg
    simp [hneg, abs_of_nonneg this]

/-- A number is at most `2^53` of the spacings at its magnitude, and so is its rounding. -/
theorem abs_roundInt_div_pow2_le {q : Rat} (hq : q ≠ 0) : |roundInt .even (q / pow2 (ulpExp q))| ≤ 2 ^ 53 := by
  have hp := pow2_pos (ulpExp q)
  rw [abs_roundInt_even, ← roundInt_intCast .even (2 ^ 53)]
  refine roundInt_mono _ ?_
  rw [abs_div, abs_of_pos hp, div_le_iff₀ hp]
  exact (abs_lt_pow2_ulpExp hq).le.trans_eq (pow2_add_natCast _ 53)

/-- Above the finest spacing a number is at least `2^52` of the spacings at its magnitude, and so is its rounding. -/
theorem le_abs_roundInt_div_pow2 {q : Rat} (hq : q ≠ 0) (hu : -1074 < ulpExp q) :
    2 ^ 52 ≤ |roundInt .even (q / pow2 (ulpExp q))| := by
  have hp := pow2_pos (ulpExp q)
  rw [abs_roundInt_even, ← roundInt_intCast .even (2 ^ 52)]
  refine roundInt_mono _ ?_
  rw [abs_div, abs_of_pos hp, le_div_iff₀ hp]
  exact (pow2_add_natCast _ 52).symm.trans_le (pow2_le_abs_of_ulpExp hq hu)

/-- Below the overflow magnitude the rounding is the value of a finite pattern, whose last fraction bit is 0 where the
rounding is an even number of spacings. -/
theorem exists_val64_eq_round64 {q : Rat} (h : |q| < overflowMagnitude) :
    ∃ b : Binary64, isFinite64 b = true ∧ val64 b = round64 q ∧
      (roundInt .even (q / pow2 (ulpExp q)) % 2 = 0 → b.getLsbD 0 = false) := by
  by_cases hq : q = 0
  · subst hq
    exact ⟨0, by decide, by rw [round64_zero]; decide +kernel, fun _ => by decide⟩
  · have hlt := abs_round64_lt_pow2 h
    rw [round64_eq] at hlt ⊢
    exact exists_val64_eq (ulpExp_ge q) (abs_roundInt_div_pow2_le hq) (le_abs_roundInt_div_pow2 hq) hlt

/-- Settles O55: the rounding is a finite value, and a value as near as it makes it an even number of spacings. -/
theorem roundingIsToNearestTiesToEven : Obligations.RoundingIsToNearestTiesToEven := by
  intro q hq
  obtain ⟨b, hfin, hval, heven⟩ := exists_val64_eq_round64 hq
  refine ⟨b, hfin, hval, fun b' _ => ?_⟩
  rw [hval]
  obtain ⟨hle, htie⟩ := round64_nearest q b'
  exact ⟨hle, fun he hne => heven (htie he hne)⟩

end Sys2Proof.Machine
end

section
/-! PROOFS. The rules of a cycle read forwards (R19, R20, R21, R105): what `step` answers where a rule applies. -/

namespace Sys2Proof.Machine
open Sys2Proof.Safety

variable {s : State}

theorem step_of_reset (hrst : s.ports.rst = true) : step s = .next (s.tick s.ports).resetRegisters := by
  simp [step, State.nextAction, hrst]

theorem step_of_accept (hrst : s.ports.rst = false) (hhold : s.holdBroken s.ports = false) (hbusy : s.busy = false)
    (hcmd : s.ports.cmdValid = true) : step s = .next ((s.tick s.ports).accept s.ports.cmd) := by
  simp [step, State.nextAction, hrst, hhold, hbusy, hcmd]

theorem step_of_idle (hrst : s.ports.rst = false) (hhold : s.holdBroken s.ports = false) (hbusy : s.busy = false)
    (hcmd : s.ports.cmdValid = false) : step s = .next (s.tick s.ports) := by
  simp [step, State.nextAction, hrst, hhold, hbusy, hcmd]

theorem nextAction_of_complete {p : Ports} (hrst : p.rst = false) (hhold : s.holdBroken p = false)
    (hbusy : s.busy = true) (hrsp : s.rspValid = false) (hwait : s.wait = 0) : s.nextAction p = .complete := by
  simp [State.nextAction, hrst, hhold, hbusy, hrsp, hwait]

theorem step_of_compute (hrst : s.ports.rst = false) (hhold : s.holdBroken s.ports = false) (hbusy : s.busy = true)
    (hrsp : s.rspValid = false) (hwait : s.wait ≠ 0) : step s = .next (s.tick s.ports).countDown := by
  simp [step, State.nextAction, hrst, hhold, hbusy, hrsp, hwait]

theorem step_of_deliver (hrst : s.ports.rst = false) (hhold : s.holdBroken s.ports = false) (hbusy : s.busy = true)
    (hrsp : s.rspValid = true) (hready : s.ports.rspReady = true) : step s = .next (s.tick s.ports).deliver := by
  simp [step, State.nextAction, hrst, hhold, hbusy, hrsp, hready]

theorem step_of_stall (hrst : s.ports.rst = false) (hhold : s.holdBroken s.ports = false) (hbusy : s.busy = true)
    (hrsp : s.rspValid = true) (hready : s.ports.rspReady = false) : step s = .next (s.tick s.ports) := by
  simp [step, State.nextAction, hrst, hhold, hbusy, hrsp, hready]

/-- A command placed in `cmd_q` is in its completing cycle. -/
theorem nextAction_placeCommand (s : State) (c : Command) :
    (s.placeCommand c).nextAction (s.placeCommand c).ports = .complete := by
  rw [State.ports_cons _ (State.placeCommand_inputs s c)]
  exact nextAction_of_complete rfl (State.holdBroken_quietPorts (s.placeCommand c)) rfl rfl rfl

/-- Only reset and accept write `cmd_q`, and a busy block does not accept. -/
theorem cmdQ_of_step_of_busy {t : State} (hrst : s.ports.rst = false) (hbusy : s.busy = true)
    (h : step s = .next t) : t.cmdQ = s.cmdQ := by
  obtain ⟨hr, -⟩ | ⟨-, -, ⟨hidle, -⟩ | ⟨hidle, -⟩ | ⟨-, -, -, rfl⟩ | ⟨-, -, -, rfl⟩ | ⟨-, -, -, rfl⟩ |
    ⟨-, -, -, rfl⟩⟩ := step_cases h
  · simp [hrst] at hr
  · simp [hbusy] at hidle
  · simp [hbusy] at hidle
  all_goals rfl

end Sys2Proof.Machine
end

section
/-! PROOFS. The interface invariant (R17 to R21): the reset state meets it and each operation on the state keeps it. -/

namespace Sys2Proof.Safety
open Sys2Proof.Machine

variable {s : State}

theorem Inv.rspValid_of_idle (h : Inv s) (hbusy : s.busy = false) : s.rspValid = false := by
  cases hrsp : s.rspValid with
  | false => rfl
  | true => simp [h.valid_busy hrsp] at hbusy

theorem Inv.tick (h : Inv s) (p : Ports) : Inv (s.tick p) :=
  ⟨h.valid_busy, h.answers, h.waiting, h.delivered_right, h.counted⟩

theorem Inv.resetRegisters (h : Inv s) : Inv s.resetRegisters where
  valid_busy := by simp
  answers := by simp
  waiting := by simp
  delivered_right := h.delivered_right
  counted := (Nat.le_add_right _ _).trans h.counted

theorem Inv.accept (h : Inv s) (hbusy : s.busy = false) (c : Command) : Inv (s.accept c) where
  valid_busy := by simp
  answers := by simp [h.rspValid_of_idle hbusy]
  waiting := by simp [h.rspValid_of_idle hbusy]
  delivered_right := h.delivered_right
  counted := by simpa [hbusy] using h.counted

theorem Inv.countDown (h : Inv s) (hbusy : s.busy = true) (hrsp : s.rspValid = false) : Inv s.countDown where
  valid_busy := h.valid_busy
  answers := h.answers
  waiting := by simp [hbusy, hrsp]
  delivered_right := h.delivered_right
  counted := h.counted

theorem Inv.respond (h : Inv s) (hbusy : s.busy = true) (hwait : s.wait = 0) : Inv (s.respond (execute s.cmdQ)) where
  valid_busy := fun _ => hbusy
  answers := fun _ => rfl
  waiting := fun _ => hwait
  delivered_right := h.delivered_right
  counted := h.counted

theorem Inv.deliver (h : Inv s) (hbusy : s.busy = true) (hrsp : s.rspValid = true) : Inv s.deliver where
  valid_busy := by simp
  answers := by simp
  waiting := fun _ => h.waiting (.inr hrsp)
  delivered_right := by
    simp only [State.deliver_delivered, List.forall_mem_cons]
    exact ⟨h.answers hrsp, h.delivered_right⟩
  counted := by simpa [hbusy] using h.counted

/-- Settles O15: the rule that applied in the cycle is one of the operations that keep the invariant. -/
theorem interfaceInvariantIsKeptByEveryStep : Obligations.InterfaceInvariantIsKeptByEveryStep := by
  intro s t hinv hstep
  have htick := hinv.tick s.ports
  obtain ⟨-, rfl⟩ | ⟨-, -, ⟨hbusy, -, rfl⟩ | ⟨-, -, rfl⟩ | ⟨hbusy, -, hwait, rfl⟩ | ⟨hbusy, hrsp, -, rfl⟩ |
    ⟨hbusy, hrsp, -, rfl⟩ | ⟨-, -, -, rfl⟩⟩ := step_cases hstep
  · exact htick.resetRegisters
  · exact htick.accept hbusy _
  · exact htick
  · exact htick.respond hbusy hwait
  · exact htick.countDown hbusy hrsp
  · exact htick.deliver hbusy hrsp
  · exact htick

/-- Settles O14: right after reset there is no response, no countdown and no delivery to speak of. -/
theorem interfaceInvariantHoldsAtReset : Obligations.InterfaceInvariantHoldsAtReset where
  valid_busy := by simp [State.reset]
  answers := by simp [State.reset]
  waiting := fun _ => rfl
  delivered_right := by simp [State.reset]
  counted := le_rfl

end Sys2Proof.Safety
end

section
/-! PROOFS. A program as atomic transactions (R16, R22): the cycles of one transaction are walked through by the
phases the block is in between them, and the program is an induction over its commands. -/

namespace Sys2Proof.Machine
open Sys2Proof.Safety

/-- A run that ends in a next state can be continued from it. -/
theorem run_add {M : Host.Core} {s t : M.State} (m n : Nat) (h : M.run m s = .next t) :
    M.run (m + n) s = M.run n t := by
  induction m generalizing s with
  | zero =>
    cases h
    rw [Nat.zero_add]
  | succ m ih =>
    rw [Nat.add_right_comm]
    simp only [Host.Core.run] at h ⊢
    cases hs : M.step s with
    | next u =>
      rw [hs] at h
      exact ih h
    | fault r => simp [hs] at h
    | refused r => simp [hs] at h

theorem run_succ_of_step {s t : State} (k : Nat) (h : step s = .next t) :
    Host.Core.run Sys2Proof.core (k + 1) s = Host.Core.run Sys2Proof.core k t := by
  have hcore : Sys2Proof.core.step s = .next t := h
  simp [Host.Core.run, hcore]

/-- The block `s` once it has accepted `c`: `n` more cycles of `LATENCY` before the one that completes `c`. -/
def State.computing (s : State) (c : Command) (n : Nat) (ps : List Ports) : State :=
  { s with
    busy := true
    cmdQ := c
    rspValid := false
    wait := n
    accepts := s.accepts + 1
    inputs := ps
    offered := none }

/-- The block `s` once it shows the response to `c`. -/
def State.answered (s : State) (c : Command) (ps : List Ports) : State := (s.computing c 0 ps).respond (execute c)

section
variable {s : State} {c : Command} {ps : List Ports}

theorem step_offerPorts (h : Ready s) (hin : s.inputs = offerPorts c :: ps) :
    step s = .next (s.computing c (Config.latency s.accepts c - 1) ps) := by
  obtain ⟨hbusy, hrsp, hoffered⟩ := h
  have hports : s.ports = offerPorts c := State.ports_cons s hin
  have hhold := State.holdBroken_of_offered_none s s.ports hoffered
  rw [step_of_accept (by rw [hports]; rfl) hhold hbusy (by rw [hports]; rfl), hports]
  simp [State.tick, State.accept, State.computing, State.cmdReady, offerPorts, hin, hbusy, hrsp]

theorem step_computing_idlePorts (n : Nat) :
    step (s.computing c (n + 1) (idlePorts :: ps)) = .next (s.computing c n ps) :=
  step_of_compute rfl rfl rfl rfl (Nat.succ_ne_zero n)

theorem step_computing_zero_idlePorts : step (s.computing c 0 (idlePorts :: ps)) = .next (s.answered c ps) :=
  step_of_complete (nextAction_of_complete rfl rfl rfl rfl rfl)

theorem step_answered_takePorts (h : Ready s) :
    step (s.answered c (takePorts :: ps)) = .next { transact s c with inputs := ps } := by
  obtain ⟨hbusy, hrsp, hoffered⟩ := h
  have hstep : step (s.answered c (takePorts :: ps)) = .next (s.answered c ps).deliver :=
    step_of_deliver rfl rfl rfl rfl rfl
  rw [hstep]
  simp [State.answered, State.computing, State.respond, State.deliver, transact, deliveryOf, hbusy, hrsp, hoffered]

/-- `LATENCY` cycles in which the host does nothing lead from an accepted command to its response. -/
theorem run_computing (n : Nat) :
    Host.Core.run Sys2Proof.core (n + 1) (s.computing c n (List.replicate (n + 1) idlePorts ++ ps)) =
      .next (s.answered c ps) := by
  induction n with
  | zero => exact run_succ_of_step 0 step_computing_zero_idlePorts
  | succ n ih => exact (run_succ_of_step (n + 1) (step_computing_idlePorts n)).trans ih

theorem length_transactionInputs (n : Nat) (c : Command) :
    (transactionInputs n c).length = Config.latency n c + 1 + 1 := by
  simp [transactionInputs]

/-- The cycles of one transaction are one atomic step. -/
theorem run_transactionInputs (h : Ready s) (hin : s.inputs = transactionInputs s.accepts c ++ ps) :
    Host.Core.run Sys2Proof.core (transactionInputs s.accepts c).length s =
      .next { transact s c with inputs := ps } := by
  have haccept := step_offerPorts h (c := c)
    (ps := List.replicate (Config.latency s.accepts c) idlePorts ++ takePorts :: ps) (by simp [hin, transactionInputs])
  have hwait := run_computing (s := s) (c := c) (ps := takePorts :: ps) (Config.extraLatency s.accepts c)
  have htake := step_answered_takePorts (c := c) (ps := ps) h
  rw [length_transactionInputs]
  calc Host.Core.run Sys2Proof.core (Config.latency s.accepts c + 1 + 1) s
    _ = Host.Core.run Sys2Proof.core (Config.latency s.accepts c + 1) _ := run_succ_of_step _ haccept
    _ = Host.Core.run Sys2Proof.core 1 (s.answered c (takePorts :: ps)) := run_add _ 1 hwait
    _ = .next { transact s c with inputs := ps } := run_succ_of_step 0 htake

end

theorem ready_transact {s : State} (h : Ready s) (c : Command) (ps : List Ports) :
    Ready { transact s c with inputs := ps } := h

/-- The transaction-level model neither reads nor writes the ports. -/
theorem foldl_transact_inputs (cs : List Command) (s : State) (ps : List Ports) :
    cs.foldl transact { s with inputs := ps } = { cs.foldl transact s with inputs := ps } := by
  induction cs generalizing s with
  | nil => rfl
  | cons c cs ih => exact ih (transact s c)

theorem delivered_foldl_transact (cs : List Command) (s : State) :
    (cs.foldl transact s).delivered = (cs.map deliveryOf).reverse ++ s.delivered := by
  induction cs generalizing s with
  | nil => rfl
  | cons c cs ih => simp [ih, transact]

theorem run_programInputs (cs : List Command) {s : State} {rest : List Ports} (h : Ready s)
    (hin : s.inputs = programInputs s.accepts cs ++ rest) :
    Host.Core.run Sys2Proof.core (programInputs s.accepts cs).length s =
      .next { cs.foldl transact s with inputs := rest } := by
  induction cs generalizing s with
  | nil =>
    have hrest : s.inputs = rest := hin
    rw [← hrest]
    rfl
  | cons c cs ih =>
    rw [programInputs, List.append_assoc] at hin
    rw [programInputs, List.length_append, run_add _ _ (run_transactionInputs h hin), List.foldl_cons]
    exact (ih (ready_transact h c _) rfl).trans (by rw [foldl_transact_inputs])

/-- Settles O16, by induction over the commands of the program. -/
theorem programsRunAsAtomicTransactions : Obligations.ProgramsRunAsAtomicTransactions := fun cs s _ h hin =>
  ⟨run_programInputs cs h hin, delivered_foldl_transact cs s⟩

end Sys2Proof.Machine
end

section
/-! PROOFS. The rules of the interface one by one (R17 to R21, R39, R105, R106), each from the step that takes it. -/

namespace Sys2Proof.Machine
open Sys2Proof.Safety

/-- Settles O8, by whether the countdown has run out. -/
theorem completeWritesWhatExecuteGives : Obligations.CompleteWritesWhatExecuteGives := by
  intro s hrst hhold hbusy hrsp
  by_cases hwait : s.wait = 0
  · have hstep := step_of_complete (nextAction_of_complete hrst hhold hbusy hrsp hwait)
    exact ⟨_, hstep, hbusy, rfl, rfl, (absurd hwait ·), fun _ => ⟨rfl, rfl, rfl⟩⟩
  · have hstep := step_of_compute hrst hhold hbusy hrsp hwait
    exact ⟨_, hstep, hbusy, rfl, rfl, fun _ => ⟨hrsp, rfl, rfl, rfl⟩, (absurd · hwait)⟩

/-- Settles O17: both blocks write `Execute` of the same word. -/
theorem responseDependsOnTheCommandAlone : Obligations.ResponseDependsOnTheCommandAlone := by
  intro s₁ s₂ t₁ t₂ hc₁ hc₂ hcmd h₁ h₂
  rw [step_of_complete hc₁, Host.Outcome.next.injEq] at h₁
  rw [step_of_complete hc₂, Host.Outcome.next.injEq] at h₂
  subst h₁ h₂
  simp [hcmd]

/-- Settles O19: a command answers its result, which is `Execute` of any word that decodes to it. -/
theorem commandsAnswerWhatExecuteGives : Obligations.CommandsAnswerWhatExecuteGives := by
  intro c i s hdec
  rw [exec_eq_respond, execute_of_decode hdec]

/-- Settles O18: every command answers by `respond`, whose frame is every other field. -/
theorem commandsWriteOnlyTheResponse : Obligations.CommandsWriteOnlyTheResponse := fun i s =>
  ⟨_, exec_eq_respond i s, rfl, rfl, rfl, rfl, rfl, rfl, rfl, rfl⟩

theorem step_of_complete_of_decode {s : State} {i : Instr} (h : s.nextAction s.ports = .complete)
    (hdec : decode s.cmdQ = .ok i) : step s = exec i (s.tick s.ports) := by
  rw [step_of_complete h, commandsAnswerWhatExecuteGives _ i _ hdec]

theorem decode_of_decodeTableWord {nbits w : Nat} {i : Instr} (h : decodeTableWord nbits w = some i) :
    decode (tableWord nbits w) = .ok i := by
  unfold decodeTableWord at h
  cases hdec : decode (tableWord nbits w) with
  | ok j => simpa [hdec, Except.toOption] using h
  | error e => simp [hdec, Except.toOption] at h

/-- Settles O6: a completing step is `exec` of the decoded word, and a placed command is in its completing cycle. -/
theorem stepRunsTheDecodedCommand : Obligations.StepRunsTheDecodedCommand := by
  refine ⟨fun s i => step_of_complete_of_decode, fun s nbits w i h => ?_⟩
  have hcomplete := nextAction_placeCommand s (tableWord nbits w)
  exact ⟨_, step_of_complete_of_decode hcomplete (decode_of_decodeTableWord h), rfl, rfl⟩

/-- Settles O7: accept samples the word, and no rule that a busy block can take outside reset writes `cmd_q`. -/
theorem acceptSamplesTheWholeCommand : Obligations.AcceptSamplesTheWholeCommand := by
  refine ⟨fun s hrst hcmd hbusy hrsp hhold => ?_, fun s t => cmdQ_of_step_of_busy⟩
  exact ⟨_, step_of_accept hrst hhold hbusy hcmd, rfl, rfl, hrsp, rfl, rfl, rfl⟩

/-- Settles O9: the rule is Deliver, and a busy block shows `cmd_ready = 0`. -/
theorem deliverGivesTheResponseAndFreesTheBlock : Obligations.DeliverGivesTheResponseAndFreesTheBlock := by
  intro s hrst hhold hbusy hrsp hready
  have hcmdReady : s.cmdReady s.ports = false := by simp [State.cmdReady, hbusy]
  exact ⟨hcmdReady, _, step_of_deliver hrst hhold hbusy hrsp hready, rfl, rfl, rfl, rfl, rfl, rfl⟩

/-- Settles O10: an idle and a stalled cycle are both only the passing of the cycle on the outside. -/
theorem registersWaitForTheHost : Obligations.RegistersWaitForTheHost := by
  intro s hrst hhold hcase
  have hstep : step s = .next (s.tick s.ports) := by
    obtain ⟨hbusy, -, hcmd⟩ | ⟨hbusy, hrsp, hready⟩ := hcase
    · exact step_of_idle hrst hhold hbusy hcmd
    · exact step_of_stall hrst hhold hbusy hrsp hready
  exact ⟨_, hstep, rfl, rfl, rfl, rfl, rfl, rfl, rfl, rfl⟩

/-- Settles O11: the reset cycle leaves an idle block, which accepts in the next cycle. -/
theorem resetClearsEveryRegister : Obligations.ResetClearsEveryRegister := by
  intro s hrst
  refine ⟨by simp [State.outputs, State.cmdReady, hrst], _, step_of_reset hrst, rfl, rfl, rfl, rfl, rfl, rfl, rfl,
    fun hrst' => ⟨?_, fun hcmd hhold => ?_⟩⟩
  · simp [State.outputs, State.cmdReady, hrst']
  · exact ⟨_, step_of_accept hrst' hhold rfl hcmd, rfl, rfl⟩

/-- Settles O12: the reset state is written out with these values. -/
theorem resetStateIsTheListedOne : Obligations.ResetStateIsTheListedOne := ⟨rfl, rfl, rfl, rfl, rfl⟩

end Sys2Proof.Machine
end

section
/-! PROOFS. The hexadecimal rendering of a frame (R30, R53), read digit by digit as an assembler operand (R55). -/

namespace Sys2Proof.Machine

@[simp] theorem hexDigitValue_hexDigit (n : BitVec 4) : hexDigitValue (hexDigit n) = some n.toNat := by
  revert n
  decide

theorem toNat_frameNibble (m : Frame) (k : Nat) : (frameNibble m k).toNat = m.toNat / 2 ^ (108 - 4 * k) % 16 := by
  rw [frameNibble, BitVec.extractLsb'_toNat, Nat.shiftRight_eq_div_pow]

@[simp] theorem length_renderFrame (m : Frame) : (renderFrame m).length = 28 := by simp [renderFrame]

@[simp] theorem digitsValue_singleton (base : Nat) (digit : Char → Option Nat) (c : Char) :
    digitsValue base digit [c] = digit c := by
  simp [digitsValue]

theorem digitsValue_concat {base : Nat} {digit : Char → Option Nat} {cs : List Char} {c : Char} {n d : Nat}
    (hcs : digitsValue base digit cs = some n) (hc : digit c = some d) :
    digitsValue base digit (cs ++ [c]) = some (n * base + d) := by
  have hne : ¬ cs.isEmpty := fun h => by simp [digitsValue, h] at hcs
  rw [digitsValue, if_neg hne] at hcs
  simp [digitsValue, List.foldl_append, hcs, hc]

/-- The digits 0 to `k` of a rendering read as the frame's bits 111 down to `108 - 4 * k`. -/
theorem digitsValue_renderFrame_prefix (m : Frame) {k : Nat} (hk : k < 28) :
    digitsValue 16 hexDigitValue ((List.range (k + 1)).map fun i => hexDigit (frameNibble m i)) =
      some (m.toNat / 2 ^ (108 - 4 * k)) := by
  induction k with
  | zero =>
    have htop : m.toNat / 2 ^ 108 < 16 := Nat.div_lt_of_lt_mul m.isLt
    simpa [toNat_frameNibble] using htop
  | succ k ih =>
    have hshift : 108 - 4 * k = 108 - 4 * (k + 1) + 4 := by omega
    have hdiv : m.toNat / 2 ^ (108 - 4 * k) = m.toNat / 2 ^ (108 - 4 * (k + 1)) / 16 := by
      rw [hshift, pow_add, ← Nat.div_div_eq_div_mul]
      norm_num
    rw [List.range_succ, List.map_append, List.map_singleton,
      digitsValue_concat (ih (by omega)) (hexDigitValue_hexDigit _), toNat_frameNibble, hdiv, Nat.div_add_mod']

theorem digitsValue_renderFrame (m : Frame) : digitsValue 16 hexDigitValue (renderFrame m) = some m.toNat := by
  simpa [renderFrame] using digitsValue_renderFrame_prefix m (k := 27) (by decide)

/-- Settles O53: the 28 digits read as the frame's number, which 112 bits hold. -/
theorem renderedFramesReadBack : Obligations.RenderedFramesReadBack := fun m => by
  simp [hexField, digitsValue_renderFrame]

end Sys2Proof.Machine
end

section
/-! PROOFS. Decoding (R37 to R48): a row of the opcode table is an op and a reserved mask (R40), the decoder is its two
checks and its fields, and encoder and decoder undo each other. -/

namespace Sys2Proof
open Sys2Proof.Machine

/-- A row's pattern is its op alone, and its mask is the op's four bits over the reserved bits of R40. -/
theorem opcodeTable_pattern_mask : ∀ r ∈ opcodeTable, r.pattern = opOf r.pattern ++ 0#252 ∧
    r.mask = BitVec.allOnes 4 ++ r.mask.extractLsb' 0 252 ∧
    reservedMask (opOf r.pattern) = 0#4 ++ r.mask.extractLsb' 0 252 := by
  decide

theorem opcodeTable_op_injective :
    ∀ r₁ ∈ opcodeTable, ∀ r₂ ∈ opcodeTable, opOf r₁.pattern = opOf r₂.pattern → r₁ = r₂ := by
  decide

theorem mnemonic_eq_iff_op_eq (i : Instr) :
    ∀ r ∈ opcodeTable, r.mnemonic = i.mnemonic ↔ opOf r.pattern = opNumber i := by
  cases i <;> simp only [Instr.mnemonic, opNumber] <;> decide

theorem append_eq_append_iff {m n : Nat} {x₁ x₂ : BitVec m} {y₁ y₂ : BitVec n} :
    x₁ ++ y₁ = x₂ ++ y₂ ↔ x₁ = x₂ ∧ y₁ = y₂ := by
  refine ⟨fun h => ⟨?_, ?_⟩, fun ⟨hx, hy⟩ => hx ▸ hy ▸ rfl⟩
  · simpa only [BitVec.extractLsb'_append_eq_left] using congrArg (BitVec.extractLsb' n m) h
  · simpa only [BitVec.extractLsb'_append_eq_right] using congrArg (BitVec.extractLsb' 0 n) h

/-- A word shows an op under the mask of the op and of bits below it when its op is that one and those bits are 0. -/
theorem and_allOnes_append_eq_iff (c : Command) (op : BitVec 4) (m : BitVec 252) :
    c &&& (BitVec.allOnes 4 ++ m) = op ++ 0#252 ↔ opOf c = op ∧ c &&& (0#4 ++ m) = 0 := by
  have hc : c = opOf c ++ c.extractLsb' 0 252 := (BitVec.extractLsb'_append_extractLsb' (w := 4) (len := 252)).symm
  have hand (x : BitVec 4) : c &&& (x ++ m) = (opOf c &&& x) ++ (c.extractLsb' 0 252 &&& m) :=
    (congrArg (· &&& (x ++ m)) hc).trans BitVec.and_append
  have hzero : (0 : Command) = 0#4 ++ 0#252 := rfl
  rw [hand, hand, hzero, append_eq_append_iff, append_eq_append_iff, BitVec.and_allOnes, BitVec.and_zero]
  simp

/-- A word selects a row when it has the row's op and no reserved bit of that op (R39, R40). -/
theorem selects_iff {r : OpcodeRow} (hr : r ∈ opcodeTable) (c : Command) :
    r.selects c = true ↔ opOf c = opOf r.pattern ∧ c &&& reservedMask (opOf r.pattern) = 0 := by
  obtain ⟨hpattern, hmask, hreserved⟩ := opcodeTable_pattern_mask r hr
  rw [OpcodeRow.selects, beq_iff_eq, hreserved, ← and_allOnes_append_eq_iff, ← hmask, ← hpattern]

theorem legalOp_iff_exists_row (c : Command) : legalOp c = true ↔ ∃ r ∈ opcodeTable, opOf c = opOf r.pattern := by
  simp [legalOp, opOf]

/-- The reserved ops are 0 and 9 to 15 (R54). -/
theorem legalOp_iff (c : Command) : legalOp c = true ↔ ¬ (opOf c = 0 ∨ 9 ≤ opOf c) := by
  have hops : ∀ op : BitVec 4,
      (opcodeTable.any fun r => op == opOf r.pattern) = !(op == 0 || 9 ≤ op) := by decide
  have h : legalOp c = _ := hops (opOf c)
  simp [h]

theorem wellFormedWord_iff (c : Command) :
    wellFormedWord c = true ↔ legalOp c = true ∧ c &&& reservedMask (opOf c) = 0 := by
  simp only [wellFormedWord, List.any_eq_true, legalOp_iff_exists_row]
  constructor
  · rintro ⟨r, hr, h⟩
    obtain ⟨hop, hrsv⟩ := (selects_iff hr c).mp h
    exact ⟨⟨r, hr, hop⟩, by rwa [hop]⟩
  · rintro ⟨⟨r, hr, hop⟩, hrsv⟩
    exact ⟨r, hr, (selects_iff hr c).mpr ⟨hop, hop ▸ hrsv⟩⟩

theorem decode_of_not_legalOp {c : Command} (h : legalOp c = false) : decode c = .error .reservedOp := by
  have hop : opOf c = 0 ∨ 9 ≤ opOf c := by
    by_contra hop
    simp [(legalOp_iff c).mpr hop] at h
  rw [decode, if_pos hop]

theorem decode_of_not_wellFormedWord {c : Command} (hop : legalOp c = true) (h : wellFormedWord c = false) :
    decode c = .error .reservedBit := by
  have hrsv : c &&& reservedMask (opOf c) ≠ 0 := fun hrsv => by simp [(wellFormedWord_iff c).mpr ⟨hop, hrsv⟩] at h
  rw [decode, if_neg ((legalOp_iff c).mp hop), if_pos hrsv]

theorem decode_of_wellFormedWord {c : Command} (h : wellFormedWord c = true) : decode c = operands (opOf c) c := by
  obtain ⟨hop, hrsv⟩ := (wellFormedWord_iff c).mp h
  rw [decode, if_neg ((legalOp_iff c).mp hop), if_neg (not_not.mpr hrsv)]

theorem wellFormedWord_of_decode {c : Command} {i : Instr} (h : decode c = .ok i) : wellFormedWord c = true := by
  by_contra hwf
  rw [Bool.not_eq_true] at hwf
  cases hop : legalOp c with
  | true => simp [decode_of_not_wellFormedWord hop hwf] at h
  | false => simp [decode_of_not_legalOp hop] at h

/-- Every legal op has a format (R38). -/
theorem exists_operands_eq (c : Command) {op : BitVec 4} (h : ¬ (op = 0 ∨ 9 ≤ op)) :
    ∃ i, operands op c = .ok i := by
  have hop : op = 1 ∨ op = 2 ∨ op = 3 ∨ op = 4 ∨ op = 5 ∨ op = 6 ∨ op = 7 ∨ op = 8 := by
    revert op
    decide
  obtain rfl | rfl | rfl | rfl | rfl | rfl | rfl | rfl := hop <;> exact ⟨_, rfl⟩

theorem opNumber_of_operands {c : Command} {op : BitVec 4} {i : Instr} (h : operands op c = .ok i) :
    opNumber i = op := by
  unfold operands at h
  split at h <;> cases h <;> exact BitVec.eq_of_toNat_eq (Eq.symm ‹_›)

theorem opNumber_legal (i : Instr) : ¬ (opNumber i = 0 ∨ 9 ≤ opNumber i) := by
  cases i <;> simp [opNumber]

/-- A decoded word: its op is the command's, its reserved bits are 0, and the command is its fields. -/
theorem decode_eq_ok_iff (c : Command) (i : Instr) :
    decode c = .ok i ↔
      opOf c = opNumber i ∧ c &&& reservedMask (opNumber i) = 0 ∧ operands (opNumber i) c = .ok i := by
  constructor
  · intro h
    have hwf := wellFormedWord_of_decode h
    obtain ⟨-, hrsv⟩ := (wellFormedWord_iff c).mp hwf
    rw [decode_of_wellFormedWord hwf] at h
    rw [opNumber_of_operands h]
    exact ⟨rfl, hrsv, h⟩
  · rintro ⟨hop, hrsv, h⟩
    have hwf : wellFormedWord c = true :=
      (wellFormedWord_iff c).mpr ⟨(legalOp_iff c).mpr (hop ▸ opNumber_legal i), hop ▸ hrsv⟩
    rw [decode_of_wellFormedWord hwf, hop, h]

theorem encode_selects_row (i : Instr) : Laws.SelectsItsRow.Statement i := by
  cases i with
  | parity frame => exact Laws.SelectsItsRow.parity frame
  | syndrome frame => exact Laws.SelectsItsRow.syndrome frame
  | nl lat => exact Laws.SelectsItsRow.nl lat
  | cpr odd lat lon => exact Laws.SelectsItsRow.cpr odd lat lon
  | alt gnss alt => exact Laws.SelectsItsRow.alt gnss alt
  | frame ca icao me => exact Laws.SelectsItsRow.frame ca icao me
  | ident ca icao tc ec cslen cs => exact Laws.SelectsItsRow.ident ca icao tc ec cslen cs
  | pos ca icao tc ss saf gnss t odd alt lat lon =>
    exact Laws.SelectsItsRow.pos ca icao tc ss saf gnss t odd alt lat lon

theorem opOf_encode_and_reserved (i : Instr) :
    opOf (encode i) = opNumber i ∧ encode i &&& reservedMask (opNumber i) = 0 := by
  obtain ⟨r, hr, hmnemonic, hsel⟩ := encode_selects_row i
  rw [← (mnemonic_eq_iff_op_eq i r hr).mp hmnemonic]
  exact (selects_iff hr _).mp hsel

theorem ofBool_beq_one (b : Bool) : (BitVec.ofBool b == 1#1) = b := by
  cases b <;> rfl

/-- Each field of the word is the operand the encoder put there, with the fields below it taken off. -/
theorem operands_encode (i : Instr) : operands (opNumber i) (encode i) = .ok i := by
  cases i <;>
    simp (disch := omega) only [opNumber, operands, encode, BitVec.getLsbD_eq_extractLsb',
      BitVec.extractLsb'_append_eq_of_le, BitVec.extractLsb'_append_eq_of_add_le, BitVec.extractLsb'_eq_self,
      ofBool_beq_one, BitVec.reduceToNat, Nat.reduceSub]

theorem ofBool_getLsbD {w : Nat} (x : BitVec w) (k : Nat) : BitVec.ofBool (x.getLsbD k) = x.extractLsb' k 1 := by
  apply BitVec.eq_of_getLsbD_eq
  intro i hi
  obtain rfl : i = 0 := by omega
  simp

/-- A field of a word that a mask covers is 0 where the word has no bit of the mask. -/
theorem zero_eq_field {c m : Command} (h : c &&& m = 0) (lo n : Nat)
    (hm : m.extractLsb' lo n = BitVec.allOnes n) : 0#n = c.extractLsb' lo n := by
  have hand := congrArg (BitVec.extractLsb' lo n) h
  rw [BitVec.extractLsb'_and, hm, BitVec.and_allOnes] at hand
  exact hand.symm ▸ BitVec.extractLsb'_zero.symm

/-- A word with the op of a command, no reserved bit and the command's fields is the command's word: the encoder puts
adjacent fields of the word side by side. -/
theorem encode_of_operands {c : Command} {i : Instr} (hop : opOf c = opNumber i)
    (hrsv : c &&& reservedMask (opNumber i) = 0) (h : operands (opNumber i) c = .ok i) : encode i = c := by
  cases i <;> cases h <;> rw [opNumber] at hop hrsv <;> rw [encode]
  case' parity => rw [← show _ = 1#4 from hop, zero_eq_field hrsv 112 140 (by decide)]
  case' syndrome => rw [← show _ = 2#4 from hop, zero_eq_field hrsv 112 140 (by decide)]
  case' nl => rw [← show _ = 3#4 from hop, zero_eq_field hrsv 64 188 (by decide)]
  case' cpr => rw [← show _ = 4#4 from hop, zero_eq_field hrsv 129 123 (by decide)]
  case' alt => rw [← show _ = 5#4 from hop, zero_eq_field hrsv 65 187 (by decide)]
  case' frame => rw [← show _ = 6#4 from hop, zero_eq_field hrsv 83 169 (by decide)]
  case' ident =>
    rw [← show _ = 7#4 from hop, zero_eq_field hrsv 107 145 (by decide), zero_eq_field hrsv 68 4 (by decide)]
  case' pos => rw [← show _ = 8#4 from hop, zero_eq_field hrsv 230 22 (by decide)]
  all_goals
    simp (disch := omega) only [opOf, ofBool_getLsbD, BitVec.extractLsb'_append_extractLsb'_eq_extractLsb']
    exact BitVec.extractLsb'_eq_self

/-- Settles O2: a decoded word has its command's op and fields and no reserved bit. -/
theorem decodeThenEncodeGivesTheWord : Obligations.DecodeThenEncodeGivesTheWord := by
  intro c i h
  obtain ⟨hop, hrsv, hoperands⟩ := (decode_eq_ok_iff c i).mp h
  exact encode_of_operands hop hrsv hoperands

/-- Settles O1: the encoder writes the op, no reserved bit and every field where the decoder reads it. -/
theorem encodeThenDecodeGivesTheCommand : Obligations.EncodeThenDecodeGivesTheCommand := by
  intro i
  obtain ⟨hop, hrsv⟩ := opOf_encode_and_reserved i
  exact (decode_eq_ok_iff _ i).mpr ⟨hop, hrsv, operands_encode i⟩

/-- Settles O3: the decoder's two checks are those of the table's rows, whose ops and mnemonics tell them apart. -/
theorem decoderAcceptsExactlyTheTablesWords : Obligations.DecoderAcceptsExactlyTheTablesWords := by
  refine ⟨fun c => ⟨fun h => ?_, fun ⟨i, h⟩ => wellFormedWord_of_decode h⟩, fun c i h => ?_,
    fun c r₁ hr₁ r₂ hr₂ h₁ h₂ => ?_⟩
  · rw [decode_of_wellFormedWord h]
    obtain ⟨hop, -⟩ := (wellFormedWord_iff c).mp h
    exact exists_operands_eq c ((legalOp_iff c).mp hop)
  · obtain ⟨r, hr, hsel⟩ := List.any_eq_true.mp (wellFormedWord_of_decode h)
    obtain ⟨hrow, -⟩ := (selects_iff hr c).mp hsel
    obtain ⟨hop, -⟩ := (decode_eq_ok_iff c i).mp h
    exact ⟨r, hr, hsel, (mnemonic_eq_iff_op_eq i r hr).mpr (hrow.symm.trans hop)⟩
  · obtain ⟨hop₁, -⟩ := (selects_iff hr₁ c).mp h₁
    obtain ⟨hop₂, -⟩ := (selects_iff hr₂ c).mp h₂
    exact opcodeTable_op_injective r₁ hr₁ r₂ hr₂ (hop₁.symm.trans hop₂)

theorem decode_of_encode_eq {c : Command} {i : Instr} (h : encode i = c) : decode c = .ok i :=
  h ▸ encodeThenDecodeGivesTheCommand i

/-- Settles O4: each of the words is the encoder's word of its command. -/
theorem specWordsDecodeToTheirCommands : Obligations.SpecWordsDecodeToTheirCommands :=
  ⟨decode_of_encode_eq rfl, decode_of_encode_eq rfl, decode_of_encode_eq rfl, decode_of_encode_eq rfl,
    decode_of_encode_eq rfl, decode_of_encode_eq rfl, decode_of_encode_eq rfl⟩

/-- Settles O5: the decoder names the table's reason, and the completing cycle responds with it. -/
theorem illegalWordsAreReported : Obligations.IllegalWordsAreReported := by
  intro s hcomplete
  refine ⟨fun hop => ?_, fun hop hwf => ?_⟩
  · rw [step_of_complete hcomplete, execute_of_illegal (decode_of_not_legalOp hop)]
    rfl
  · rw [step_of_complete hcomplete, execute_of_illegal (decode_of_not_wellFormedWord hop hwf)]
    rfl

end Sys2Proof
end

section
/-! PROOFS. The commands that check their operands (R70, R71, R81, R89, R90): each is its checks in order, then the
data of its result. -/

namespace Sys2Proof.Machine
open Sys2Proof.Safety

theorem except_map_eq_ok_iff {ε α β : Type} {x : Except ε α} {f : α → β} {b : β} :
    x.map f = .ok b ↔ ∃ a, x = .ok a ∧ f a = b := by
  cases x <;> simp [Except.map]

theorem except_bind_eq_ok_iff {ε α β : Type} {x : Except ε α} {f : α → Except ε β} {b : β} :
    x.bind f = .ok b ↔ ∃ a, x = .ok a ∧ f a = .ok b := by
  cases x <;> simp [Except.bind]

theorem nlCommand_eq (lat : Binary64) :
    nlCommand lat = (checkLat lat).map fun _ => (BitVec.ofNat 6 (zoneCount (val64 lat))).setWidth 112 := by
  unfold nlCommand
  cases checkLat lat <;> rfl

theorem cprCommand_eq (p : Params) (odd : Bool) (lat lon : Binary64) :
    cprCommand p odd lat lon = (checkLat lat).bind fun _ => (checkLon lon).map fun _ =>
      (cprLat p (val64 lat) odd ++ cprLon p (val64 lat) (val64 lon) odd).setWidth 112 := by
  unfold cprCommand
  cases checkLat lat <;> cases checkLon lon <;> rfl

theorem altCommand_eq (p : Params) (gnss : Bool) (alt : Binary64) :
    altCommand p gnss alt = (altEncode p alt gnss).map fun kc => (kindCode kc.1 ++ kc.2).setWidth 112 := by
  unfold altCommand
  cases altEncode p alt gnss <;> rfl

theorem identCommand_eq (ca : BitVec 3) (icao : BitVec 24) (tc : BitVec 5) (ec : BitVec 3) (cslen : BitVec 4)
    (cs : BitVec 64) :
    identCommand ca icao tc ec cslen cs = (callsign cslen cs).map fun c => buildFrame ca icao (identMe tc ec c) := by
  unfold identCommand
  cases callsign cslen cs <;> rfl

theorem posCommand_eq (p : Params) (ca : BitVec 3) (icao : BitVec 24) (tc : BitVec 5) (ss : BitVec 2)
    (saf gnss t odd : Bool) (alt lat lon : Binary64) :
    posCommand p ca icao tc ss saf gnss t odd alt lat lon =
      (altEncode p alt gnss).bind fun kc => (checkLat lat).bind fun _ => (checkLon lon).map fun _ =>
        buildFrame ca icao (posMe tc ss saf kc.2 t odd (cprLat p (val64 lat) odd)
          (cprLon p (val64 lat) (val64 lon) odd)) := by
  unfold posCommand
  cases altEncode p alt gnss with
  | error e => rfl
  | ok kc => cases checkLat lat <;> cases checkLon lon <;> rfl

/-- A frame that a command answers with is built from its capability and address and some ME (R88 to R90). -/
theorem exists_buildFrame_of_ok {p : Params} {i : Instr} {d : Data} {ca : BitVec 3} {icao : BitVec 24}
    (haddress : addressOf i = some (ca, icao)) (h : commandResult p i = .ok d) : ∃ me, d = buildFrame ca icao me := by
  cases i with
  | frame ca icao me =>
    cases haddress
    cases h
    exact ⟨me, rfl⟩
  | ident ca icao tc ec cslen cs =>
    cases haddress
    simp only [commandResult, identCommand_eq, except_map_eq_ok_iff] at h
    obtain ⟨c, -, rfl⟩ := h
    exact ⟨_, rfl⟩
  | pos ca icao tc ss saf gnss t odd alt lat lon =>
    cases haddress
    simp only [commandResult, posCommand_eq, except_bind_eq_ok_iff, except_map_eq_ok_iff] at h
    obtain ⟨kc, -, -, -, -, -, rfl⟩ := h
    exact ⟨_, rfl⟩
  | _ => cases haddress

theorem checkLat_of_valid {f : Binary64} (h : latValid f) : checkLat f = .ok () :=
  (checkLat_cases f).elim And.right fun ⟨hnot, _⟩ => absurd h hnot

theorem checkLat_of_not_valid {f : Binary64} (h : ¬ latValid f) : checkLat f = .error ⟨.range, .lat, 0⟩ :=
  (checkLat_cases f).elim (fun ⟨hvalid, _⟩ => absurd hvalid h) And.right

theorem checkLon_of_valid {f : Binary64} (h : lonValid f) : checkLon f = .ok () :=
  (checkLon_cases f).elim And.right fun ⟨hnot, _⟩ => absurd h hnot

theorem checkLon_of_not_valid {f : Binary64} (h : ¬ lonValid f) : checkLon f = .error ⟨.range, .lon, 0⟩ :=
  (checkLon_cases f).elim (fun ⟨hvalid, _⟩ => absurd hvalid h) And.right

/-- Settles O50, by the altitude's encoding, then the latitude's check, then the longitude's. -/
theorem posAnswersThePositionFrame : Obligations.PosAnswersThePositionFrame := by
  intro ca icao tc ss saf gnss t odd alt lat lon s
  simp only [exec_eq_respond, commandResult, posCommand_eq]
  refine ⟨fun e halt => ?_, fun kind code halt => ⟨fun hlat hlon => ?_, fun hlat => ?_, fun hlat hlon => ?_⟩⟩
  · rw [halt]
    rfl
  · rw [halt, checkLat_of_valid hlat, checkLon_of_valid hlon]
    rfl
  · rw [halt, checkLat_of_not_valid hlat]
    rfl
  · rw [halt, checkLat_of_valid hlat, checkLon_of_not_valid hlon]
    rfl

end Sys2Proof.Machine
end

section
/-! PROOFS. The callsign (R84, R85): what it answers, that it reads the given bytes alone, and the command `ident`. -/

namespace Sys2Proof.Machine
open Sys2Proof.Safety

theorem firstInvalid_eq_none_iff (cs : BitVec 64) (n : Nat) :
    firstInvalid cs n = none ↔ ∀ i < n, charCode (csByte cs i) ≠ none := by
  simp [firstInvalid]

theorem firstInvalid_eq_some_iff (cs : BitVec 64) (n i : Nat) :
    firstInvalid cs n = some i ↔
      i < n ∧ charCode (csByte cs i) = none ∧ ∀ j < i, charCode (csByte cs j) ≠ none := by
  simp [firstInvalid, and_left_comm, Option.isSome_iff_ne_none]

theorem callsign_of_gt {cslen : BitVec 4} (cs : BitVec 64) (h : 8 < cslen.toNat) :
    callsign cslen cs = .error ⟨.range, .cslen, 0⟩ := if_pos h

theorem callsign_of_firstInvalid {cslen : BitVec 4} {cs : BitVec 64} {i : Nat} (h : cslen.toNat ≤ 8)
    (hi : firstInvalid cs cslen.toNat = some i) :
    callsign cslen cs = .error ⟨.validation, .cschar, BitVec.ofNat 4 i⟩ := by
  rw [callsign, if_neg (not_lt.mpr h), hi]
  rfl

theorem callsign_of_valid {cslen : BitVec 4} {cs : BitVec 64} (h : callsignValid cslen cs) :
    callsign cslen cs = .ok ((List.range 8).map (callsignCode cslen cs)) := by
  obtain ⟨hlen, hvalid⟩ := h
  rw [callsign, if_neg (not_lt.mpr hlen), (firstInvalid_eq_none_iff cs _).mpr hvalid]

theorem errorDetail_cschar :
    ∀ i < 8, errorDetail ⟨.validation, .cschar, BitVec.ofNat 4 i⟩ = BitVec.ofNat 112 (i * 256 + 4) := by
  decide

/-- Settles O47, by what the callsign answers. -/
theorem identAnswersTheIdentificationFrame : Obligations.IdentAnswersTheIdentificationFrame := by
  intro ca icao tc ec cslen cs s
  simp only [exec_eq_respond, commandResult, identCommand_eq]
  refine ⟨fun hvalid => ?_, fun hlen => ?_, fun i hi hlen hnone hbefore => ?_⟩
  · rw [callsign_of_valid hvalid]
    rfl
  · rw [callsign_of_gt cs hlen]
    rfl
  · have hfirst := (firstInvalid_eq_some_iff cs _ i).mpr ⟨hi, hnone, hbefore⟩
    rw [callsign_of_firstInvalid hlen hfirst, ← errorDetail_cschar i (by omega)]
    rfl

/-- The first `cslen` bytes are all a callsign depends on (R85). -/
theorem callsign_congr {cslen : BitVec 4} {cs₁ cs₂ : BitVec 64}
    (h : ∀ i < cslen.toNat, i < 8 → csByte cs₁ i = csByte cs₂ i) : callsign cslen cs₁ = callsign cslen cs₂ := by
  rcases Nat.lt_or_ge 8 cslen.toNat with hlen | hlen
  · rw [callsign_of_gt cs₁ hlen, callsign_of_gt cs₂ hlen]
  · have hbyte : ∀ i < cslen.toNat, csByte cs₁ i = csByte cs₂ i := fun i hi => h i hi (by omega)
    have hfirst : firstInvalid cs₁ cslen.toNat = firstInvalid cs₂ cslen.toNat :=
      List.find?_congr fun i hi => by rw [hbyte i (List.mem_range.mp hi)]
    have hcode : callsignCode cslen cs₁ = callsignCode cslen cs₂ := by
      funext i
      exact ite_congr rfl (fun hi => by rw [hbyte i hi]) fun _ => rfl
    rw [callsign, callsign, hfirst, hcode]

/-- Settles O48: the command depends on the bytes through the callsign alone. -/
theorem callsignBytesPastTheLengthAreIgnored : Obligations.CallsignBytesPastTheLengthAreIgnored := by
  intro ca icao tc ec cslen cs₁ cs₂ s h
  simp only [exec_eq_respond, commandResult, identCommand_eq, callsign_congr h]

end Sys2Proof.Machine
end

section
/-! PROOFS. The data of an OK response (R49): the bits each command fills. -/

namespace Sys2Proof.Machine
open Sys2Proof.Safety

theorem foldl_max_le_iff (l : List Nat) (a b : Nat) : l.foldl max a ≤ b ↔ a ≤ b ∧ ∀ x ∈ l, x ≤ b := by
  induction l generalizing a with
  | nil => simp
  | cons x l ih => simp [ih, and_assoc]

theorem le_foldl_max {l : List Nat} {x : Nat} (a : Nat) (h : x ∈ l) : x ≤ l.foldl max a :=
  ((foldl_max_le_iff l a _).mp le_rfl).2 x h

theorem zoneCount_le (q : Rat) : zoneCount q ≤ 59 := by
  have htable : ∀ e ∈ nlTable, e.1 ≤ 59 := by decide
  unfold zoneCount
  split_ifs
  · decide
  · rw [foldl_max_le_iff, List.forall_mem_map]
    exact ⟨by decide, fun e he => htable e (List.mem_of_mem_filter he)⟩

/-- Up to 87 degrees the threshold of 2 zones is not exceeded, and beyond there is 1 zone (R65). -/
theorem zoneCount_pos (q : Rat) : 1 ≤ zoneCount q := by
  have hthreshold : val64 0x4055C00000000000 = 87 := by decide +kernel
  unfold zoneCount
  split_ifs with h
  · exact le_rfl
  · have hle : |q| ≤ val64 0x4055C00000000000 := hthreshold ▸ not_lt.mp h
    have hmem : (2, 0x4055C00000000000#64) ∈ nlTable.filter fun e => |q| ≤ val64 e.2 :=
      List.mem_filter.mpr ⟨by decide, decide_eq_true hle⟩
    exact (by decide : 1 ≤ 2).trans (le_foldl_max 0 (List.mem_map_of_mem (f := Prod.fst) hmem))

theorem toNat_setWidth_lt {n : Nat} (x : BitVec n) : (x.setWidth 112).toNat < 2 ^ n := by
  rw [BitVec.toNat_setWidth]
  exact (Nat.mod_le _ _).trans_lt x.isLt

theorem toNat_kindCode_append_lt (k : AltKind) (code : BitVec 12) : (kindCode k ++ code).toNat < 3 * 2 ^ 12 := by
  have hk : (kindCode k).toNat ≤ 2 := by cases k <;> decide
  have hcode := code.isLt
  rw [BitVec.toNat_append, ← Nat.shiftLeft_add_eq_or_of_lt hcode, Nat.shiftLeft_eq]
  omega

/-- A built frame's DF is 17 (R82). -/
theorem extractLsb'_buildFrame_df (ca : BitVec 3) (icao : BitVec 24) (me : MsgElem) :
    (buildFrame ca icao me).extractLsb' 107 5 = 17 := by
  simp (disch := omega) only [buildFrame, h88, BitVec.extractLsb'_append_eq_of_le]
  exact BitVec.extractLsb'_eq_self

/-- Settles O22, by the command: 24-bit and 34-bit values widened, a bounded zone count, a kind of at most 2, and
built frames. -/
theorem okDataFillsOnlyItsField : Obligations.OkDataFillsOnlyItsField := by
  intro p i d h
  have hframe (ca : BitVec 3) (icao : BitVec 24) (haddress : addressOf i = some (ca, icao)) :
      d.extractLsb' 107 5 = 17 := by
    obtain ⟨me, rfl⟩ := exists_buildFrame_of_ok haddress h
    exact extractLsb'_buildFrame_df ca icao me
  cases i with
  | parity frame =>
    cases h
    exact toNat_setWidth_lt (crc24 frame true)
  | syndrome frame =>
    cases h
    exact toNat_setWidth_lt (crc24 frame false)
  | nl lat =>
    simp only [commandResult, nlCommand_eq, except_map_eq_ok_iff] at h
    obtain ⟨-, -, rfl⟩ := h
    have hle := zoneCount_le (val64 lat)
    have hpos := zoneCount_pos (val64 lat)
    simp only [BitVec.toNat_setWidth, BitVec.toNat_ofNat]
    omega
  | cpr odd lat lon =>
    simp only [commandResult, cprCommand_eq, except_bind_eq_ok_iff, except_map_eq_ok_iff] at h
    obtain ⟨-, -, -, -, rfl⟩ := h
    exact toNat_setWidth_lt _
  | alt gnss alt =>
    simp only [commandResult, altCommand_eq, except_map_eq_ok_iff] at h
    obtain ⟨⟨kind, code⟩, -, rfl⟩ := h
    rw [BitVec.toNat_setWidth]
    exact (Nat.mod_le _ _).trans_lt (toNat_kindCode_append_lt kind code)
  | frame ca icao me => exact hframe ca icao rfl
  | ident ca icao tc ec cslen cs => exact hframe ca icao rfl
  | pos ca icao tc ss saf gnss t odd alt lat lon => exact hframe ca icao rfl

end Sys2Proof.Machine
end

section
/-! PROOFS. The assembler's lines (R55, R56). -/

namespace Sys2Proof.Machine

/-- Settles O54, line by line: the assembler is run on it, decimal literals and their rounding included. -/
theorem assemblerLinesStandForTheirWords : Obligations.AssemblerLinesStandForTheirWords := by
  refine ⟨?_, ?_, ?_, ?_, ?_, ?_, ?_, ?_, ?_, ?_, ?_, ?_, ?_⟩ <;> decide +kernel

end Sys2Proof.Machine
end

section
/-! PROOFS. The division of a frame by the generator polynomial (R59), one bit of the dividend at a time: its steps are
linear, each clears its bit, and together they leave the remainder. -/

namespace Sys2Proof.Machine
open Sys2Proof.Safety

/-- One step of the long division by `P(x)`: when bit `k` from the top is 1, `P` is subtracted with its top bit there. -/
def divStep (d : Frame) (k : Nat) : Frame :=
  if d.getLsbD (111 - k) then d ^^^ (generatorPoly <<< (87 - k)) else d

/-- The first `n` steps of the division. -/
def divide (n : Nat) (d : Frame) : Frame := (List.range n).foldl divStep d

theorem divide_succ (n : Nat) (d : Frame) : divide (n + 1) d = divStep (divide n d) n := by
  simp [divide, List.range_succ]

theorem divStep_of_bit {d : Frame} {k : Nat} (h : d.getLsbD (111 - k) = true) :
    divStep d k = d ^^^ (generatorPoly <<< (87 - k)) := if_pos h

theorem divStep_of_not_bit {d : Frame} {k : Nat} (h : d.getLsbD (111 - k) = false) : divStep d k = d :=
  if_neg (Bool.eq_false_iff.mp h)

theorem xor_xor_xor_self (a b p : Frame) : (a ^^^ p) ^^^ (b ^^^ p) = a ^^^ b := by
  calc (a ^^^ p) ^^^ (b ^^^ p) = (a ^^^ b) ^^^ (p ^^^ p) := by ac_rfl
    _ = a ^^^ b := by simp

/-- A conditional XOR is linear in the condition and in the value: two XORs of the same `p` cancel. -/
theorem ite_xor_linear (b₁ b₂ : Bool) (d₁ d₂ p : Frame) :
    (if b₁ ^^ b₂ then (d₁ ^^^ d₂) ^^^ p else d₁ ^^^ d₂) =
      (if b₁ then d₁ ^^^ p else d₁) ^^^ (if b₂ then d₂ ^^^ p else d₂) := by
  match b₁, b₂ with
  | false, false => rfl
  | false, true => exact BitVec.xor_assoc d₁ d₂ p
  | true, false => exact (by ac_rfl : (d₁ ^^^ d₂) ^^^ p = (d₁ ^^^ p) ^^^ d₂)
  | true, true => exact (xor_xor_xor_self d₁ d₂ p).symm

theorem divStep_xor (d₁ d₂ : Frame) (k : Nat) : divStep (d₁ ^^^ d₂) k = divStep d₁ k ^^^ divStep d₂ k := by
  simp only [divStep, BitVec.getLsbD_xor, ite_xor_linear]

theorem divide_xor (n : Nat) (d₁ d₂ : Frame) : divide n (d₁ ^^^ d₂) = divide n d₁ ^^^ divide n d₂ :=
  List.foldl_hom₂ _ (· ^^^ ·) divStep divStep divStep d₁ d₂ fun d₁ d₂ k => (divStep_xor d₁ d₂ k).symm

/-- The generator moved to bit `k` from the top has that bit for its highest. -/
theorem getLsbD_shift_generatorPoly {k p : Nat} (hk : k < 88) (hp : 111 - k ≤ p) (hp' : p < 112) :
    (generatorPoly <<< (87 - k)).getLsbD p = decide (p = 111 - k) := by
  have hbits : ∀ j < 112, 24 ≤ j → generatorPoly.getLsbD j = decide (j = 24) := by decide
  have hlow : ¬ p < 87 - k := by omega
  have hplace : p - (87 - k) = 24 ↔ p = 111 - k := by omega
  rw [BitVec.getLsbD_shiftLeft, hbits _ (by omega) (by omega)]
  simp [hp', hlow, hplace]

theorem getLsbD_divStep {d : Frame} {k p : Nat} (hk : k < 88) (hp : 111 - k ≤ p) (hp' : p < 112) :
    (divStep d k).getLsbD p = (d.getLsbD p && decide (p ≠ 111 - k)) := by
  cases h : d.getLsbD (111 - k) with
  | true =>
    rw [divStep_of_bit h, BitVec.getLsbD_xor, getLsbD_shift_generatorPoly hk hp hp']
    by_cases heq : p = 111 - k <;> simp [heq, h]
  | false =>
    rw [divStep_of_not_bit h]
    by_cases heq : p = 111 - k <;> simp [heq, h]

/-- R59: a step leaves its bit 0. -/
theorem getLsbD_divStep_self (d : Frame) {k : Nat} (hk : k < 88) : (divStep d k).getLsbD (111 - k) = false := by
  simp [getLsbD_divStep hk le_rfl (by omega : 111 - k < 112)]

theorem getLsbD_divide {n p : Nat} (d : Frame) (hn : n ≤ 88) (hp : 112 - n ≤ p) : (divide n d).getLsbD p = false := by
  induction n with
  | zero => exact BitVec.getLsbD_of_ge _ _ hp
  | succ n ih =>
    by_cases hp' : p < 112
    · rw [divide_succ, getLsbD_divStep hn (by omega) hp']
      by_cases heq : p = 111 - n
      · simp [heq]
      · simp [ih (by omega) (by omega)]
    · exact BitVec.getLsbD_of_ge _ _ (by omega)

/-- R59: after the division only the low 24 bits are left. -/
theorem divide_eq_setWidth (d : Frame) : divide 88 d = ((divide 88 d).extractLsb' 0 24).setWidth 112 := by
  refine BitVec.eq_of_getLsbD_eq fun p hp => ?_
  by_cases h : p < 24
  · simp [h, hp]
  · rw [getLsbD_divide d le_rfl (by omega)]
    simp [h]

theorem divide_of_header_zero {d : Frame} (h : d.extractLsb' 24 88 = 0) {n : Nat} (hn : n ≤ 88) : divide n d = d := by
  induction n with
  | zero => rfl
  | succ n ih =>
    have hbit : d.getLsbD (111 - n) = (d.extractLsb' 24 88).getLsbD (87 - n) := by
      simp [show 87 - n < 88 by omega, show 24 + (87 - n) = 111 - n by omega]
    rw [divide_succ, ih (by omega), divStep_of_not_bit (by simp [hbit, h])]

/-- Bit `i` of the quotient adds the polynomial shifted by `i`: the loop body of `clmul`. -/
def clmulStep (q : BitVec 88) (p acc : Frame) (i : Nat) : Frame := if q.getLsbD i then acc ^^^ (p <<< i) else acc

theorem clmul_eq_foldl (q : BitVec 88) (p : Frame) : clmul q p = (List.range 88).foldl (clmulStep q p) 0 := rfl

theorem clmulStep_xor (q₁ q₂ : BitVec 88) (p a₁ a₂ : Frame) (i : Nat) :
    clmulStep (q₁ ^^^ q₂) p (a₁ ^^^ a₂) i = clmulStep q₁ p a₁ i ^^^ clmulStep q₂ p a₂ i := by
  simp only [clmulStep, BitVec.getLsbD_xor, ite_xor_linear]

theorem clmul_xor (q₁ q₂ : BitVec 88) (p : Frame) : clmul (q₁ ^^^ q₂) p = clmul q₁ p ^^^ clmul q₂ p :=
  List.foldl_hom₂ _ (· ^^^ ·) (clmulStep q₁ p) (clmulStep q₂ p) (clmulStep (q₁ ^^^ q₂) p) 0 0
    fun a₁ a₂ i => (clmulStep_xor q₁ q₂ p a₁ a₂ i).symm

theorem clmul_zero (p : Frame) : clmul 0#88 p = 0#112 := by simp [clmul]

theorem foldl_clmulStep_twoPow (p : Frame) {j : Nat} (hj : j < 88) (n : Nat) :
    (List.range n).foldl (clmulStep (BitVec.twoPow 88 j) p) 0 = if j < n then p <<< j else 0 := by
  induction n with
  | zero => rfl
  | succ n ih =>
    rw [List.range_succ, List.foldl_concat, ih, clmulStep, BitVec.getLsbD_twoPow]
    by_cases h : j = n
    · subst h
      simp [hj]
    · have hlt : j < n ↔ j < n + 1 := by omega
      simp [h, hlt]

theorem clmul_twoPow (p : Frame) {j : Nat} (hj : j < 88) : clmul (BitVec.twoPow 88 j) p = p <<< j := by
  rw [clmul_eq_foldl, foldl_clmulStep_twoPow p hj, if_pos hj]

/-- Each step takes a multiple of `P` away, and the quotient gains the power of `x` it was taken at. -/
theorem exists_eq_clmul_xor_divide (d : Frame) {n : Nat} (hn : n ≤ 88) :
    ∃ q : BitVec 88, d = clmul q generatorPoly ^^^ divide n d := by
  induction n with
  | zero => exact ⟨0#88, by simp [clmul_zero, divide]⟩
  | succ n ih =>
    obtain ⟨q, hq⟩ := ih (by omega)
    rw [divide_succ]
    cases h : (divide n d).getLsbD (111 - n) with
    | false => exact ⟨q, by rwa [divStep_of_not_bit h]⟩
    | true =>
      refine ⟨q ^^^ BitVec.twoPow 88 (87 - n), ?_⟩
      rwa [divStep_of_bit h, clmul_xor, clmul_twoPow _ (by omega), xor_xor_xor_self]

end Sys2Proof.Machine
end

section
/-! PROOFS. The CRC's byte list read as one frame (R29), and one step of R58 on it: an XOR of one window (R59). -/

namespace Sys2Proof.Machine
open Sys2Proof.Safety

/-- Appending bytes to a frame, as `frameOfBytes` does, puts the last one lowest. -/
theorem getLsbD_foldl_appendByte (bs : List Byte) (n : Nat) {k : Nat} (hk : k < 112) :
    ((List.range n).foldl (fun (acc : Frame) j => (acc <<< 8) ||| (bs.getD j 0).setWidth 112) 0).getLsbD k =
      (decide (k < 8 * n) && (bs.getD (n - 1 - k / 8) 0).getLsbD (k % 8)) := by
  induction n generalizing k with
  | zero => simp
  | succ n ih =>
    rw [List.range_succ, List.foldl_concat, BitVec.getLsbD_or, BitVec.getLsbD_shiftLeft, BitVec.getLsbD_setWidth]
    by_cases h : k < 8
    · have hq : k / 8 = 0 := by omega
      have hr : k % 8 = k := by omega
      have hn : k < 8 * (n + 1) := by omega
      simp [h, hk, hq, hr, hn]
    · have hq : n - 1 - (k - 8) / 8 = n - k / 8 := by omega
      have hr : (k - 8) % 8 = k % 8 := by omega
      have hn : k - 8 < 8 * n ↔ k < 8 * (n + 1) := by omega
      rw [ih (by omega), BitVec.getLsbD_of_ge _ _ (by omega : 8 ≤ k)]
      simp [h, hk, hq, hr, hn]

/-- R29: bit `k` of a frame is in byte `13 - k / 8`. -/
theorem getLsbD_frameOfBytes (bs : List Byte) {k : Nat} (hk : k < 112) :
    (frameOfBytes bs).getLsbD k = (bs.getD (13 - k / 8) 0).getLsbD (k % 8) := by
  rw [frameOfBytes, getLsbD_foldl_appendByte bs 14 hk]
  simp [hk]

theorem getLsbD_getD (bs : List Byte) {i b : Nat} (hi : i < 14) (hb : b < 8) :
    (bs.getD i 0).getLsbD b = (frameOfBytes bs).getLsbD (104 - 8 * i + b) := by
  rw [getLsbD_frameOfBytes bs (by omega), show 13 - (104 - 8 * i + b) / 8 = i by omega,
    show (104 - 8 * i + b) % 8 = b by omega]

theorem getD_eq_frameByte (bs : List Byte) {i : Nat} (hi : i < 14) :
    bs.getD i 0 = frameByte (frameOfBytes bs) i := by
  refine BitVec.eq_of_getLsbD_eq fun b hb => ?_
  rw [getLsbD_getD bs hi hb, frameByte, BitVec.getLsbD_extractLsb']
  simp [hb]

theorem getD_frameBytes (m : Frame) {i : Nat} (hi : i < 14) : (frameBytes m).getD i 0 = frameByte m i := by
  simp [frameBytes, hi]

@[simp] theorem frameOfBytes_frameBytes (m : Frame) : frameOfBytes (frameBytes m) = m := by
  refine BitVec.eq_of_getLsbD_eq fun k hk => ?_
  have hbit : k % 8 < 8 := by omega
  have hpos : 104 - 8 * (13 - k / 8) + k % 8 = k := by omega
  rw [getLsbD_frameOfBytes _ hk, getD_frameBytes m (by omega), frameByte, BitVec.getLsbD_extractLsb', hpos]
  simp [hbit]

theorem getD_xorByte {bs : List Byte} {j : Nat} (i x : Nat) (hj : j < bs.length) :
    (xorByte bs i x).getD j 0 = if i = j then bs.getD j 0 ^^^ BitVec.ofNat 8 x else bs.getD j 0 := by
  simp only [xorByte, List.getD_eq_getElem?_getD, List.getElem?_modify, List.getElem?_eq_getElem hj]
  split_ifs <;> rfl

/-- An XOR into byte `i` is an XOR of the byte moved to its place in the frame. -/
theorem frameOfBytes_xorByte {bs : List Byte} {i : Nat} (x : Nat) (hlen : bs.length = 14) (hi : i < 14) :
    frameOfBytes (xorByte bs i x) = frameOfBytes bs ^^^ ((BitVec.ofNat 8 x).setWidth 112 <<< (104 - 8 * i)) := by
  refine BitVec.eq_of_getLsbD_eq fun k hk => ?_
  rw [getLsbD_frameOfBytes _ hk, getD_xorByte _ _ (by omega), BitVec.getLsbD_xor, getLsbD_frameOfBytes _ hk,
    BitVec.getLsbD_shiftLeft, BitVec.getLsbD_setWidth]
  by_cases h : i = 13 - k / 8
  · have hlow : ¬ k < 104 - 8 * i := by omega
    have hpos : k - (104 - 8 * i) = k % 8 := by omega
    have hwide : k % 8 < 112 := by omega
    rw [if_pos h, hpos, BitVec.getLsbD_xor]
    simp [hk, hlow, hwide]
  · rw [if_neg h]
    by_cases hlow : k < 104 - 8 * i
    · simp [hlow]
    · rw [BitVec.getLsbD_of_ge (BitVec.ofNat 8 x) (k - (104 - 8 * i)) (by omega)]
      simp

/-- R59: `G32 >> b`, cut into the four bytes of R58, as one value of frame width. -/
theorem xor_genPattern : ∀ b < 8,
    (BitVec.ofNat 8 (genPattern b 0)).setWidth 112 <<< 24 ^^^ (BitVec.ofNat 8 (genPattern b 1)).setWidth 112 <<< 16 ^^^
      (BitVec.ofNat 8 (genPattern b 2)).setWidth 112 <<< 8 ^^^ (BitVec.ofNat 8 (genPattern b 3)).setWidth 112 =
      ((generatorWord >>> b).setWidth 112 : Frame) := by
  decide

/-- R59: no bit of `G32` is lost by the shift right, so the window holds the generator with its top bit at the bit
under test. -/
theorem window_eq_shift_generatorPoly {i b : Nat} (hi : i < 11) (hb : b < 8) :
    ((generatorWord >>> b).setWidth 112 : Frame) <<< (80 - 8 * i) = generatorPoly <<< (87 - (8 * i + b)) := by
  have hword : ∀ b < 8, ((generatorWord >>> b).setWidth 112 : Frame) = generatorPoly <<< (7 - b) := by decide
  rw [hword b hb, ← BitVec.shiftLeft_add]
  exact congrArg _ (by omega)

/-- R59: the loop body of R58 for bit `b` of byte `i` XORs `G32 >> b` into the window at byte `i`. -/
theorem frameOfBytes_crcBit {bs : List Byte} {i b : Nat} (hlen : bs.length = 14) (hi : i < 11) (hb : b < 8) :
    frameOfBytes (crcBit i bs b) =
      if (frameOfBytes bs).getLsbD (111 - 8 * i - b)
        then frameOfBytes bs ^^^ (((generatorWord >>> b).setWidth 112) <<< (80 - 8 * i))
        else frameOfBytes bs := by
  have hbit : (bs.getD i 0).getLsbD (7 - b) = (frameOfBytes bs).getLsbD (111 - 8 * i - b) := by
    rw [getLsbD_getD bs (by omega) (by omega), show 104 - 8 * i + (7 - b) = 111 - 8 * i - b by omega]
  have h₀ : 104 - 8 * i = 24 + (80 - 8 * i) := by omega
  have h₁ : 104 - 8 * (i + 1) = 16 + (80 - 8 * i) := by omega
  have h₂ : 104 - 8 * (i + 2) = 8 + (80 - 8 * i) := by omega
  have h₃ : 104 - 8 * (i + 3) = 80 - 8 * i := by omega
  unfold crcBit
  rw [hbit]
  split_ifs with h
  · rw [← xor_genPattern b hb, frameOfBytes_xorByte _ (by simp [hlen]) (by omega),
      frameOfBytes_xorByte _ (by simp [hlen]) (by omega), frameOfBytes_xorByte _ (by simp [hlen]) (by omega),
      frameOfBytes_xorByte _ hlen (by omega)]
    simp only [h₀, h₁, h₂, h₃, BitVec.shiftLeft_add, BitVec.shiftLeft_xor_distrib, BitVec.xor_assoc]
  · rfl

/-- The loop body of R58 is a step of the division. -/
theorem frameOfBytes_crcBit_eq_divStep {bs : List Byte} {i b : Nat} (hlen : bs.length = 14) (hi : i < 11)
    (hb : b < 8) : frameOfBytes (crcBit i bs b) = divStep (frameOfBytes bs) (8 * i + b) := by
  rw [frameOfBytes_crcBit hlen hi hb, window_eq_shift_generatorPoly hi hb, divStep, Nat.sub_sub]

/-- Settles O24: the window is the generator with its top bit at the tested bit, which a division step clears. -/
theorem crcStepXorsOneWindow : Obligations.CrcStepXorsOneWindow := by
  intro bs i b hlen hi hb
  refine ⟨frameOfBytes_crcBit hlen hi hb, ?_⟩
  rw [frameOfBytes_crcBit_eq_divStep hlen hi hb, Nat.sub_sub]
  exact getLsbD_divStep_self _ (by omega)

end Sys2Proof.Machine
end

section
/-! PROOFS. `CRC24` is the remainder of the division by the generator polynomial (R58, R59), and the laws that follow
(R60 to R63). -/

namespace Sys2Proof.Machine
open Sys2Proof.Safety

theorem divide_add (m n : Nat) (d : Frame) :
    divide (m + n) d = (List.range n).foldl (fun d k => divStep d (m + k)) (divide m d) := by
  simp [divide, List.range_add, List.foldl_map]

theorem frameOfBytes_foldl_crcBit {bs : List Byte} {i n : Nat} (hlen : bs.length = 14) (hi : i < 11) (hn : n ≤ 8) :
    frameOfBytes ((List.range n).foldl (crcBit i) bs) =
      (List.range n).foldl (fun d b => divStep d (8 * i + b)) (frameOfBytes bs) := by
  induction n with
  | zero => simp
  | succ n ih =>
    rw [List.range_succ, List.foldl_concat, List.foldl_concat, ← ih (by omega),
      frameOfBytes_crcBit_eq_divStep (by rw [length_foldl_crcBit, hlen]) hi hn]

theorem length_foldl_crcByte (l : List Nat) (bs : List Byte) : (l.foldl crcByte bs).length = bs.length := by
  induction l generalizing bs with
  | nil => rfl
  | cons i l ih => simp [ih]

theorem frameOfBytes_foldl_crcByte {bs : List Byte} {n : Nat} (hlen : bs.length = 14) (hn : n ≤ 11) :
    frameOfBytes ((List.range n).foldl crcByte bs) = divide (8 * n) (frameOfBytes bs) := by
  induction n with
  | zero => simp [divide]
  | succ n ih =>
    rw [List.range_succ, List.foldl_concat, crcByte,
      frameOfBytes_foldl_crcBit (by rw [length_foldl_crcByte, hlen]) hn le_rfl, ih (by omega), ← divide_add,
      Nat.mul_succ]

@[simp] theorem length_crcBytes (m : Frame) : (crcBytes m).length = 14 := by
  simp [crcBytes, length_foldl_crcByte]

/-- R59: the loops of R58 are the 88 steps of the division. -/
theorem frameOfBytes_crcBytes (m : Frame) : frameOfBytes (crcBytes m) = divide 88 m := by
  simp [crcBytes, frameOfBytes_foldl_crcByte (length_frameBytes m) le_rfl]

theorem getD_crcBytes (m : Frame) {i : Nat} (hi : i < 14) : (crcBytes m).getD i 0 = frameByte (divide 88 m) i := by
  rw [getD_eq_frameByte _ hi, frameOfBytes_crcBytes]

theorem frameByte_divide {i : Nat} (m : Frame) (hi : i < 11) : frameByte (divide 88 m) i = 0 := by
  refine BitVec.eq_of_getLsbD_eq fun b hb => ?_
  rw [frameByte, BitVec.getLsbD_extractLsb', getLsbD_divide m le_rfl (by omega)]
  simp

/-- Settles O25: the first 11 bytes are the bits the division has cleared. -/
theorem crcLoopClearsTheHeader : Obligations.CrcLoopClearsTheHeader := by
  intro m
  refine ⟨length_crcBytes m, List.ext_getElem (by simp) fun i hi _ => ?_⟩
  have hi' : i < 11 := by simpa using hi
  have hbyte : (crcBytes m).getD i 0 = 0 := by rw [getD_crcBytes m (by omega), frameByte_divide m hi']
  rw [List.getElem_take, List.getElem_replicate, ← hbyte, List.getD_eq_getElem _ _ (by simp; omega)]

/-- R58, R59: `CRC24` is what the division leaves in the low 24 bits. -/
theorem crc24_eq (m : Frame) (enc : Bool) : crc24 m enc = (divide 88 (crcInput m enc)).extractLsb' 0 24 := by
  rw [crc24, getD_crcBytes _ (by omega), getD_crcBytes _ (by omega), getD_crcBytes _ (by omega)]
  unfold frameByte
  rw [BitVec.extractLsb'_append_extractLsb'_eq_extractLsb' (by omega),
    BitVec.extractLsb'_append_extractLsb'_eq_extractLsb' (by omega)]

theorem setWidth_crc24 (m : Frame) (enc : Bool) : (crc24 m enc).setWidth 112 = divide 88 (crcInput m enc) := by
  rw [crc24_eq, ← divide_eq_setWidth]

/-- Settles O26: `CRC24` is what the division leaves of its input. -/
theorem crcIsThePolynomialRemainder : Obligations.CrcIsThePolynomialRemainder := by
  intro m
  rw [setWidth_crc24, setWidth_crc24]
  exact ⟨exists_eq_clmul_xor_divide m le_rfl, exists_eq_clmul_xor_divide _ le_rfl⟩

theorem crcInput_xor (m₁ m₂ : Frame) (enc : Bool) :
    crcInput (m₁ ^^^ m₂) enc = crcInput m₁ enc ^^^ crcInput m₂ enc := by
  cases enc with
  | false => rfl
  | true =>
    simp only [crcInput, if_true, BitVec.extractLsb'_xor]
    exact (BitVec.xor_append (y₁ := 0#24) (y₂ := 0#24)).symm

/-- R60 (a). -/
theorem crc24_xor (m₁ m₂ : Frame) (enc : Bool) : crc24 (m₁ ^^^ m₂) enc = crc24 m₁ enc ^^^ crc24 m₂ enc := by
  simp [crc24_eq, crcInput_xor, divide_xor, BitVec.extractLsb'_xor]

/-- R60 (c). -/
theorem crc24_true_congr {m₁ m₂ : Frame} (h : m₁.extractLsb' 24 88 = m₂.extractLsb' 24 88) :
    crc24 m₁ true = crc24 m₂ true := by
  simp [crc24_eq, crcInput, h]

/-- R60 (d), in syndrome mode: the division finds no bit to clear. -/
theorem crc24_false_of_header_zero {m : Frame} (h : m.extractLsb' 24 88 = 0) :
    crc24 m false = m.extractLsb' 0 24 := by
  rw [crc24_eq, crcInput, if_neg Bool.false_ne_true, divide_of_header_zero h le_rfl]

theorem crc24_true_eq (m : Frame) : crc24 m true = crc24 (m.extractLsb' 24 88 ++ 0#24) false := by
  simp [crc24_eq, crcInput]

/-- R60 (e): the frame is its header and its last 24 bits, which syndrome mode gives back. -/
theorem crc24_false_eq (m : Frame) : crc24 m false = crc24 m true ^^^ m.extractLsb' 0 24 := by
  have hsplit : m = (m.extractLsb' 24 88 ++ 0#24) ^^^ (0#88 ++ m.extractLsb' 0 24) := by
    calc m = (m.extractLsb' 24 88 ^^^ 0#88) ++ (0#24 ^^^ m.extractLsb' 0 24) := by
          rw [BitVec.xor_zero, BitVec.zero_xor, BitVec.extractLsb'_append_extractLsb'_eq_extractLsb' (by rfl),
            BitVec.extractLsb'_eq_self]
      _ = _ := BitVec.xor_append.symm
  rw [crc24_true_eq]
  conv_lhs => rw [hsplit]
  rw [crc24_xor, crc24_false_of_header_zero (m := 0#88 ++ _) BitVec.extractLsb'_append_eq_left,
    BitVec.extractLsb'_append_eq_right]

/-- Settles O27, law by law. -/
theorem crcLawsHold : Obligations.CrcLawsHold := by
  have hzero : ∀ enc, crc24 0 enc = 0 := fun enc => by simpa using crc24_xor 0 0 enc
  refine ⟨crc24_xor, hzero, fun _ _ => crc24_true_congr, fun m h => ⟨crc24_false_of_header_zero h, ?_⟩, crc24_false_eq⟩
  exact (crc24_true_congr h).trans (hzero true)

/-- Settles O28: in syndrome mode the parity is added to itself. -/
theorem syndromeOfAParityFrameIsZero : Obligations.SyndromeOfAParityFrameIsZero := by
  intro h
  have hparity : crc24 (h ++ crc24 (h ++ 0#24) true) true = crc24 (h ++ 0#24) true :=
    crc24_true_congr (by simp only [BitVec.extractLsb'_append_eq_left])
  rw [crc24_false_eq, hparity, BitVec.extractLsb'_append_eq_right, BitVec.xor_self]
  rfl

/-- Settles O23: each command answers its CRC, widened with zeros. -/
theorem parityAndSyndromeAnswerTheCrc : Obligations.ParityAndSyndromeAnswerTheCrc := by
  intro m s
  simp only [BitVec.ofNat_toNat]
  exact ⟨exec_eq_respond (.parity m) s, exec_eq_respond (.syndrome m) s⟩

end Sys2Proof.Machine
end

section
/-! PROOFS. The zone count NL (R64, R65): how many thresholds the latitude does not exceed, and what follows. -/

namespace Sys2Proof.Machine
open Sys2Proof.Safety

/-- R65: the 58 thresholds, each below the one before it. -/
theorem nlTable_thresholds_pairwise : (nlTable.map fun e => val64 e.2).Pairwise fun a b => b < a := by
  decide +kernel

/-- Of thresholds that fall along a list numbered from `a`, those not exceeded stand first, so their numbers run from
`a` on. -/
theorem map_fst_filter_eq_range' (t : Rat) {l : List (Nat × Binary64)} {a : Nat}
    (hnum : l.map Prod.fst = List.range' a l.length)
    (hfall : (l.map fun e => val64 e.2).Pairwise fun a b => b < a) :
    (l.filter fun e => t ≤ val64 e.2).map Prod.fst = List.range' a (l.filter fun e => t ≤ val64 e.2).length := by
  induction l generalizing a with
  | nil => rfl
  | cons e l ih =>
    simp only [List.map_cons, List.length_cons, List.range'_succ, List.cons.injEq] at hnum
    rw [List.map_cons, List.pairwise_cons, List.forall_mem_map] at hfall
    obtain ⟨hbelow, hfall⟩ := hfall
    by_cases he : t ≤ val64 e.2
    · rw [List.filter_cons_of_pos (by simpa using he), List.map_cons, List.length_cons, List.range'_succ,
        ih hnum.2 hfall, hnum.1]
    · have hnone : (e :: l).filter (fun e => t ≤ val64 e.2) = [] := by
        rw [List.filter_eq_nil_iff, List.forall_mem_cons]
        exact ⟨by simpa using he, fun e' he' => by simpa using (hbelow e' he').trans (not_le.mp he)⟩
      rw [hnone]
      rfl

theorem foldl_max_range' (a n : Nat) : (List.range' a (n + 1)).foldl max 0 = a + n := by
  refine le_antisymm ((foldl_max_le_iff _ _ _).mpr ⟨Nat.zero_le _, fun x hx => ?_⟩) (le_foldl_max 0 ?_)
  · rw [List.mem_range'_1] at hx
    omega
  · rw [List.mem_range'_1]
    omega

/-- R65: every threshold is at most 87 degrees, the threshold of 2 zones. -/
theorem exists_le_threshold_iff (t : Rat) : (∃ e ∈ nlTable, t ≤ val64 e.2) ↔ t ≤ 87 := by
  have htop : ∀ e ∈ nlTable, val64 e.2 ≤ 87 := by decide +kernel
  have hfirst : (2, 0x4055C00000000000#64) ∈ nlTable ∧ val64 0x4055C00000000000 = 87 := by decide +kernel
  exact ⟨fun ⟨e, he, h⟩ => h.trans (htop e he), fun h => ⟨_, hfirst.1, h.trans_eq hfirst.2.symm⟩⟩

/-- R65: the greatest `n` whose threshold is not exceeded is one more than how many are not, since `n` starts at 2. -/
theorem zoneCount_eq_length (q : Rat) : zoneCount q = (nlTable.filter fun e => |q| ≤ val64 e.2).length + 1 := by
  have hnone : (nlTable.filter fun e => |q| ≤ val64 e.2) = [] ↔ 87 < |q| := by
    rw [← not_le, ← exists_le_threshold_iff]
    simp [List.filter_eq_nil_iff]
  have hnum := map_fst_filter_eq_range' |q| (a := 2) (by decide) nlTable_thresholds_pairwise
  unfold zoneCount
  split_ifs with h
  · rw [hnone.mpr h]
    rfl
  · obtain ⟨n, hn⟩ := Nat.exists_eq_succ_of_ne_zero (mt List.eq_nil_of_length_eq_zero (mt hnone.mp h))
    rw [hnum, hn, foldl_max_range']
    omega

theorem zoneCount_abs (q : Rat) : zoneCount |q| = zoneCount q := by
  simp [zoneCount]

theorem zoneCount_antitone {q r : Rat} (h : |q| ≤ |r|) : zoneCount r ≤ zoneCount q := by
  rw [zoneCount_eq_length, zoneCount_eq_length]
  refine Nat.succ_le_succ (List.monotone_filter_right _ fun e he => ?_).length_le
  simpa using h.trans (by simpa using he)

/-- Settles O30: the numbers of the thresholds run from 2 on without a gap. -/
theorem zoneCountCountsTheThresholds : Obligations.ZoneCountCountsTheThresholds :=
  ⟨nlTable_thresholds_pairwise, zoneCount_eq_length,
    fun q => ⟨zoneCount_pos q, zoneCount_le q, by rw [← zoneCount_abs, abs_neg, zoneCount_abs]⟩,
    fun _ _ => zoneCount_antitone⟩

/-- Settles O31: the zone count at the edge of each case, and its fall in between. -/
theorem zoneCountSpecialCases : Obligations.ZoneCountSpecialCases := by
  have hequator : zoneCount (1 / 1000000) = 59 := by decide +kernel
  have hpole : zoneCount 87 = 2 := by decide +kernel
  intro q
  refine ⟨fun h => ?_, fun h => ?_, fun h => if_pos h, fun h => ⟨?_, zoneCount_le q⟩⟩
  · refine (zoneCount_le q).antisymm (hequator ▸ zoneCount_antitone ?_)
    rw [abs_of_pos (by norm_num : (0 : Rat) < 1 / 1000000)]
    exact h.le
  · rw [← zoneCount_abs, h, hpole]
  · refine hpole ▸ zoneCount_antitone ?_
    rwa [abs_of_pos (by norm_num : (0 : Rat) < 87)]

/-- Settles O29: the zone count fits the 6 bits it is written in. -/
theorem nlAnswersTheZoneCount : Obligations.NlAnswersTheZoneCount := by
  intro lat s
  simp only [exec_eq_respond, commandResult, nlCommand_eq]
  refine ⟨fun hlat => ?_, fun hlat => ?_⟩
  · have hbound := zoneCount_le (val64 lat)
    rw [checkLat_of_valid hlat, Except.map, BitVec.setWidth_ofNat_of_le_of_lt (by decide) (by omega)]
    rfl
  · rw [checkLat_of_not_valid hlat]
    rfl

end Sys2Proof.Machine
end

section
/-! PROOFS. The codes and their fields: saturation (R69), the zones of a frame (R67, R68), and the commands `cpr` and
`pos` that put the codes together (R71, R87, R90). -/

namespace Sys2Proof.Machine
open Sys2Proof.Safety

/-- Settles O35, by the mode: a clamped value is its own residue modulo 2^17. -/
theorem saturationClampsOrWraps : Obligations.SaturationClampsOrWraps := by
  intro y
  constructor
  · have hmod : max 0 (min y 131071) % ((2 ^ 17 : Nat) : Int) = max 0 (min y 131071) :=
      Int.emod_eq_of_lt (by omega) (by omega)
    rw [sat17, BitVec.toNat_ofInt, hmod]
    omega
  · rw [sat17, BitVec.toNat_ofInt]
    omega

/-- Settles O36: a zone count is at least 1, so an even frame uses all its zones. -/
theorem cprCodesUseTheFramesZones : Obligations.CprCodesUseTheFramesZones := by
  intro lat lon
  have heven : lonZones (zoneCount lat) false = zoneCount lat := max_eq_left (zoneCount_pos lat)
  refine ⟨rfl, rfl, ?_, rfl⟩
  rw [cprLon, nlLatitude, params, heven]

theorem toNat_append_eq {m n : Nat} (x : BitVec m) (y : BitVec n) :
    (x ++ y).toNat = x.toNat * 2 ^ n + y.toNat := by
  rw [BitVec.toNat_append, ← Nat.shiftLeft_add_eq_or_of_lt y.isLt, Nat.shiftLeft_eq]

/-- Settles O32, by the latitude's check, then the longitude's. -/
theorem cprAnswersBothCodes : Obligations.CprAnswersBothCodes := by
  intro odd lat lon s
  simp only [exec_eq_respond, commandResult, cprCommand_eq]
  refine ⟨fun hlat hlon => ?_, fun hlat => ?_, fun hlat hlon => ?_⟩
  · rw [checkLat_of_valid hlat, checkLon_of_valid hlon, ← toNat_append_eq, BitVec.ofNat_toNat]
    rfl
  · rw [checkLat_of_not_valid hlat]
    rfl
  · rw [checkLat_of_valid hlat, checkLon_of_not_valid hlon]
    rfl

/-- A position ME is its first 22 bits and the two CPR codes (R87). -/
theorem posMe_eq_append_codes (tc : BitVec 5) (ss : BitVec 2) (saf : Bool) (altcode : BitVec 12) (t odd : Bool)
    (yz xz : BitVec 17) :
    posMe tc ss saf altcode t odd yz xz =
      tc ++ ss ++ BitVec.ofBool saf ++ altcode ++ BitVec.ofBool t ++ BitVec.ofBool odd ++ (yz ++ xz) := by
  rw [posMe, BitVec.append_assoc, BitVec.cast_eq]

/-- Settles O51: the low 12 bits of the one part are the altitude code, the low 34 bits of the other the two CPR
codes, and valid parts have passed every check of the whole. -/
theorem posIsTheFrameOfItsParts : Obligations.PosIsTheFrameOfItsParts := by
  intro p ca icao tc ss saf gnss t odd alt lat lon da dc halt hcpr
  simp only [commandResult, altCommand_eq, cprCommand_eq, except_bind_eq_ok_iff, except_map_eq_ok_iff] at halt hcpr
  obtain ⟨kc, halt, rfl⟩ := halt
  obtain ⟨⟨⟩, hlat, ⟨⟩, hlon, rfl⟩ := hcpr
  simp only [commandResult, posCommand_eq, halt, hlat, hlon]
  rw [BitVec.extractLsb'_setWidth_of_le (by decide), BitVec.extractLsb'_append_eq_right,
    BitVec.extractLsb'_setWidth_of_le (by decide), BitVec.extractLsb'_eq_self, ← posMe_eq_append_codes]
  rfl

end Sys2Proof.Machine
end

section
/-! PROOFS. The CPR quantizer (R67 to R69): the residual of a coordinate in its zone, exact and rounded. -/

namespace Sys2Proof.Machine

theorem zoneSize_exact {p : Params} (h : p.arith = .exact) (z : Nat) : zoneSize p z = 360 / z := by
  rw [zoneSize, h, fl_exact]

/-- Without rounding, the residual is what `x / d` has beyond its floor, in units of the zone size. -/
theorem zoneResidual_exact {p : Params} (h : p.arith = .exact) (x : Rat) {d : Rat} (hd : d ≠ 0) :
    zoneResidual p x d = Int.fract (x / d) * d := by
  rw [zoneResidual, zoneIndex, h, fl_exact, fl_exact, fl_exact, Int.fract, sub_mul, div_mul_cancel₀ x hd, mul_comm d]

theorem scaledResidual_exact {p : Params} (h : p.arith = .exact) (x : Rat) {d : Rat} (hd : d ≠ 0) :
    scaledResidual p x d = roundInt p.roundTie (Int.fract (x / d) * 2 ^ 17) := by
  rw [scaledResidual, zoneResidual_exact h x hd, mul_div_cancel_right₀ _ hd, h, fl_exact]

/-- Settles O33: the fraction of the zone is a fractional part, from 0 up to 1. -/
theorem exactResidualIsTheFractionOfAZone : Obligations.ExactResidualIsTheFractionOfAZone := by
  intro p x z harith hz
  have hd : 0 < zoneSize p z := by
    rw [zoneSize_exact harith]
    positivity
  have hquot : x / zoneSize p z = x * z / 360 := by
    rw [zoneSize_exact harith, div_div_eq_mul_div]
  have h₀ := Int.fract_nonneg (x * z / 360)
  have h₁ := Int.fract_lt_one (x * z / 360)
  rw [scaledResidual_exact harith x hd.ne', zoneResidual_exact harith x hd.ne', hquot]
  refine ⟨mul_nonneg h₀ hd.le, mul_lt_of_lt_one_left hd h₁, mul_div_cancel_right₀ _ hd.ne',
    roundInt_nonneg _ (by positivity), ?_⟩
  have hscaled : Int.fract (x * z / 360) * 2 ^ 17 ≤ ((2 ^ 17 : Int) : Rat) := by
    push_cast
    linarith
  exact (roundInt_mono _ hscaled).trans_eq (roundInt_intCast _ _)

/-- A rounding of a magnitude below 1024 moves it by at most half the spacing there, in either mode. -/
theorem abs_fl_sub_le (a : Arith) {q : Rat} (h : |q| < 1024) : |fl a q - q| ≤ 1 / 2 ^ 44 := by
  cases a with
  | exact => simp
  | binary64 =>
    by_cases hq : q = 0
    · simp [hq]
    · have hlog : floorLog2 |q| < 10 :=
        floorLog2_lt_of_lt_pow2 (abs_pos.mpr hq) (h.trans_eq (by norm_num [pow2]))
      have hulp : pow2 (ulpExp q) ≤ pow2 (-43) := pow2_le_pow2.mpr (by unfold ulpExp; omega)
      calc |round64 q - q| ≤ pow2 (ulpExp q) / 2 := round64_error q
        _ ≤ pow2 (-43) / 2 := by linarith
        _ = 1 / 2 ^ 44 := by norm_num [pow2_eq_zpow]

/-- `x` lies in the zone the rounded quotient answers, or within the rounding of one of its two edges. -/
theorem sub_zoneIndex_near (p : Params) {x d : Rat} (hd : 0 < d) (h : |x / d| < 1024) :
    -(d / 2 ^ 44) ≤ x - d * zoneIndex p x d ∧ x - d * zoneIndex p x d ≤ d + d / 2 ^ 44 := by
  obtain ⟨herr₁, herr₂⟩ := abs_le.mp (abs_fl_sub_le p.arith h)
  have hlo : (zoneIndex p x d : Rat) ≤ fl p.arith (x / d) := Int.floor_le _
  have hhi : fl p.arith (x / d) < zoneIndex p x d + 1 := Int.lt_floor_add_one _
  have hx : x - d * zoneIndex p x d = d * (x / d - zoneIndex p x d) := by
    rw [mul_sub, mul_div_cancel₀ x hd.ne']
  rw [hx]
  constructor
  · calc -(d / 2 ^ 44) = d * -(1 / 2 ^ 44) := by ring
      _ ≤ _ := mul_le_mul_of_nonneg_left (by linarith) hd.le
  · calc d * (x / d - zoneIndex p x d) ≤ d * (1 + 1 / 2 ^ 44) := mul_le_mul_of_nonneg_left (by linarith) hd.le
      _ = d + d / 2 ^ 44 := by ring

/-- The residual lies in one zone, but for the three roundings it is reached by. -/
theorem zoneResidual_near (p : Params) {x d : Rat} (hx : |x| ≤ 180) (hd₁ : 1 ≤ d) (hd₂ : d ≤ 361) :
    -(3 / 2 ^ 44) * d ≤ zoneResidual p x d ∧ zoneResidual p x d ≤ (1 + 3 / 2 ^ 44) * d := by
  have hd : 0 < d := by linarith
  have hquot : |x / d| < 1024 := by
    rw [abs_div, abs_of_pos hd, div_lt_iff₀ hd]
    linarith
  obtain ⟨hj₁, hj₂⟩ := sub_zoneIndex_near p hd hquot
  obtain ⟨hx₁, hx₂⟩ := abs_le.mp hx
  have hm : |d * zoneIndex p x d| < 1024 := abs_lt.mpr ⟨by linarith, by linarith⟩
  obtain ⟨hm₁, hm₂⟩ := abs_le.mp (abs_fl_sub_le p.arith hm)
  have hr : |x - fl p.arith (d * zoneIndex p x d)| < 1024 := abs_lt.mpr ⟨by linarith, by linarith⟩
  obtain ⟨hr₁, hr₂⟩ := abs_le.mp (abs_fl_sub_le p.arith hr)
  unfold zoneResidual
  constructor <;> linarith

/-- From one zone to 60, a zone's size is 360 to 6 degrees, but for its rounding. -/
theorem zoneSize_bounds (p : Params) {z : Nat} (h₁ : 1 ≤ z) (h₂ : z ≤ 60) :
    1 ≤ zoneSize p z ∧ zoneSize p z ≤ 361 := by
  have hz₁ : (1 : Rat) ≤ z := by exact_mod_cast h₁
  have hz₂ : (z : Rat) ≤ 60 := by exact_mod_cast h₂
  have hlo : 6 ≤ 360 / (z : Rat) := by
    rw [le_div_iff₀ (by linarith)]
    linarith
  have hhi : 360 / (z : Rat) ≤ 360 := div_le_self (by norm_num) hz₁
  obtain ⟨herr₁, herr₂⟩ := abs_le.mp (abs_fl_sub_le p.arith (abs_lt.mpr ⟨by linarith, by linarith⟩))
  unfold zoneSize
  constructor <;> linarith

/-- A number less than a half outside two integers is rounded to between them. -/
theorem roundInt_mem_Icc (tie : RoundTie) {y : Rat} {m n : Int} (h₁ : m - 1 / 2 < y) (h₂ : y < n + 1 / 2) :
    m ≤ roundInt tie y ∧ roundInt tie y ≤ n := by
  obtain ⟨hhi, hlo⟩ := roundInt_near tie y
  constructor
  · have : (m : Rat) < roundInt tie y + 1 := by linarith
    exact Int.lt_add_one_iff.mp (by exact_mod_cast this)
  · have : (roundInt tie y : Rat) < n + 1 := by linarith
    exact Int.lt_add_one_iff.mp (by exact_mod_cast this)

/-- Settles O34: the four roundings together move the scaled fraction of a zone by far less than a half. -/
theorem scaledResidualFitsSeventeenBitsAndOne : Obligations.ScaledResidualFitsSeventeenBitsAndOne := by
  intro p x z hx hz₁ hz₂
  obtain ⟨hd₁, hd₂⟩ := zoneSize_bounds p hz₁ hz₂
  have hd : 0 < zoneSize p z := by linarith
  obtain ⟨hr₁, hr₂⟩ := zoneResidual_near p hx hd₁ hd₂
  rw [← le_div_iff₀ hd] at hr₁
  rw [← div_le_iff₀ hd] at hr₂
  obtain ⟨hf₁, hf₂⟩ := abs_le.mp (abs_fl_sub_le p.arith (abs_lt.mpr ⟨by linarith, by linarith⟩))
  exact roundInt_mem_Icc p.roundTie (by push_cast; linarith) (by push_cast; linarith)

end Sys2Proof.Machine
end

section
/-! PROOFS. The Gray code (R77), and the bits of the two barometric codes (R76, R79). -/

namespace Sys2Proof.Machine

/-- The Gray code is linear: every bit is the XOR of two bits of its argument. -/
theorem gray_xor (m n : Nat) : gray (m ^^^ n) = gray m ^^^ gray n := by
  simp only [gray, Nat.shiftRight_xor_distrib]
  ac_rfl

theorem gray_lt_two_pow {n k : Nat} (h : n < 2 ^ k) : gray n < 2 ^ k :=
  Nat.xor_lt_two_pow h ((Nat.shiftRight_le n 1).trans_lt h)

/-- Only the highest bit of a run of ones differs from the bit above it. -/
theorem gray_two_pow_sub_one (k : Nat) : gray (2 ^ (k + 1) - 1) = 2 ^ k := by
  refine Nat.eq_of_testBit_eq fun i => ?_
  rw [gray, Nat.testBit_xor, Nat.testBit_shiftRight, Nat.testBit_two_pow_sub_one, Nat.testBit_two_pow_sub_one,
    Nat.testBit_two_pow, Bool.eq_iff_iff]
  simp only [bne_iff_ne, ne_eq, decide_eq_decide, decide_eq_true_iff]
  omega

/-- Counting up by one flips the trailing ones and the zero above them. -/
theorem exists_xor_succ_eq (n : Nat) : ∃ k, n ^^^ (n + 1) = 2 ^ (k + 1) - 1 := by
  induction n using Nat.strong_induction_on with
  | _ n ih =>
    obtain ⟨m, rfl | rfl⟩ := Nat.even_or_odd' n
    · exact ⟨0, by rw [← Nat.xor_one_of_even (even_two_mul m), Nat.xor_xor_cancel_left]; rfl⟩
    · obtain ⟨k, hk⟩ := ih m (by omega)
      have hbit : (2 * m + 1) ^^^ (2 * (m + 1)) = 2 * (m ^^^ (m + 1)) + 1 := Nat.xor_bit true m false (m + 1)
      refine ⟨k + 1, ?_⟩
      rw [show 2 * m + 1 + 1 = 2 * (m + 1) by ring, hbit, hk]
      have := Nat.two_pow_pos k
      omega

/-- Settles O42: the codes of `n` and `n + 1` differ in the code of a run of ones. -/
theorem grayCodesOfConsecutiveIntegersDifferInOneBit :
    Obligations.GrayCodesOfConsecutiveIntegersDifferInOneBit := by
  intro n
  obtain ⟨k, hk⟩ := exists_xor_succ_eq n
  refine ⟨rfl, ⟨k, ?_⟩, fun h => gray_lt_two_pow (k := 8) h, fun h => gray_lt_two_pow (k := 3) (by omega)⟩
  rw [← gray_xor, hk, gray_two_pow_sub_one]

/-- Settles O41, by the three parts of the concatenation. -/
theorem q1CodeHoldsTheCountAroundTheQBit : Obligations.Q1CodeHoldsTheCountAroundTheQBit := by
  intro n
  constructor
  · have hn := n.isLt
    rw [q1Code, toNat_append_eq, toNat_append_eq, BitVec.extractLsb'_toNat, BitVec.extractLsb'_toNat,
      Nat.shiftRight_eq_div_pow, BitVec.toNat_ofNat]
    omega
  · rw [q1Code, getLsbD_append_of_le (by decide), getLsbD_append_of_lt (by decide)]
    rfl

/-- Settles O44, bit by bit. -/
theorem q0InterleaveIsTheMappingTable : Obligations.Q0InterleaveIsTheMappingTable := by
  intro g500 g100
  refine BitVec.eq_of_getLsbD_eq fun k hk => ?_
  rw [interleave, getLsbD_fieldOfBits _ _ hk]
  interval_cases k
  all_goals
    simp (disch := decide) only [getLsbD_append_of_lt, getLsbD_append_of_le, BitVec.getLsbD_extractLsb']
    rfl

end Sys2Proof.Machine
end

section
/-! PROOFS. Binary64 values under the rounding (R12): each is its own rounding, none is nearer to 0 than the finest
spacing, and below a multiple of a spacing the next is that spacing lower. -/

namespace Sys2Proof.Machine

theorem round64_val64 (f : Binary64) : round64 (val64 f) = val64 f := by
  have h := (round64_nearest (val64 f) f).1
  rw [sub_self, abs_zero, abs_nonpos_iff, sub_eq_zero] at h
  exact h.symm

theorem pow2_le_abs_val64 {f : Binary64} (h : val64 f ≠ 0) : pow2 (-1074) ≤ |val64 f| := by
  obtain ⟨k, e, he, -, hv⟩ := val64_eq_multiple f
  have hk : k ≠ 0 := by
    rintro rfl
    simp [hv] at h
  have hone : (1 : Rat) ≤ |(k : Rat)| := by exact_mod_cast Int.one_le_abs hk
  calc pow2 (-1074) ≤ pow2 e := pow2_le_pow2.mpr he
    _ ≤ |(k : Rat)| * pow2 e := le_mul_of_one_le_left (pow2_pos e).le hone
    _ = |val64 f| := by rw [hv, abs_mul, abs_of_pos (pow2_pos e)]

/-- From the finest spacing on a number does not round to 0. -/
theorem round64_pos {q : Rat} (h : pow2 (-1074) ≤ q) : 0 < round64 q := by
  have hfinest : val64 1 = pow2 (-1074) := by decide +kernel
  calc 0 < pow2 (-1074) := pow2_pos _
    _ = round64 (pow2 (-1074)) := by rw [← hfinest, round64_val64]
    _ ≤ round64 q := round64_mono (pow2_pos _).le h

/-- Below a number of more than `2^52` spacings no binary64 value is within a spacing of it. -/
theorem val64_le_sub_pow2 {f : Binary64} {c : Rat} {n u : Int} (hc : c = n * pow2 u) (hn : 2 ^ 52 < n)
    (h : val64 f < c) : val64 f ≤ c - pow2 u := by
  have hp := pow2_pos u
  rw [hc, ← sub_one_mul]
  rcases val64_on_grid_or_small f u with ⟨k, hk⟩ | ⟨-, hsmall⟩
  · rw [hk, hc] at h
    have hlt : k < n := by exact_mod_cast lt_of_mul_lt_mul_right h hp.le
    rw [hk]
    refine mul_le_mul_of_nonneg_right ?_ hp.le
    exact_mod_cast Int.le_sub_one_of_lt hlt
  · have hle : ((2 ^ 52 : Int) : Rat) ≤ n - 1 := by exact_mod_cast Int.le_sub_one_of_lt hn
    calc val64 f ≤ |val64 f| := le_abs_self _
      _ ≤ pow2 (u + 52) := hsmall.le
      _ = ((2 ^ 52 : Int) : Rat) * pow2 u := pow2_add_natCast u 52
      _ ≤ (n - 1) * pow2 u := mul_le_mul_of_nonneg_right hle hp.le

theorem fl_mono (a : Arith) {q r : Rat} (h₀ : 0 ≤ q) (h : q ≤ r) : fl a q ≤ fl a r := by
  cases a with
  | exact => exact h
  | binary64 => exact round64_mono h₀ h

theorem fl_nonneg (a : Arith) {q : Rat} (h : 0 ≤ q) : 0 ≤ fl a q := by
  cases a with
  | exact => exact h
  | binary64 => exact round64_nonneg h

end Sys2Proof.Machine
end

section
/-! PROOFS. Feet (R72): their sign, and that they are a value of the `ARITH` mode. -/

namespace Sys2Proof.Machine
open Sys2Proof.Safety

/-- An overflow keeps the sign of the rounding. -/
theorem flNum_lt_zero_iff (a : Arith) (q : Rat) : (flNum a q).lt 0 = true ↔ fl a q < 0 := by
  cases a with
  | exact => simp [Num.lt]
  | binary64 =>
    have hp := pow2_pos 1024
    simp only [flNum, fl_binary64]
    split_ifs with h₁ h₂
    · simp only [Num.lt, Bool.false_eq_true, false_iff, not_lt]
      exact hp.le.trans h₁
    · simp only [Num.lt, true_iff]
      linarith
    · simp [Num.lt]

/-- Metres divided by the constant of R72 are no nearer to 0, and so round to a number of the same sign. -/
theorem round64_feet_neg_iff (f : Binary64) : round64 (val64 f / val64 0x3FD381D7DBF487FD) < 0 ↔ val64 f < 0 := by
  have hC := metresPerFoot_pos
  have hC₁ : val64 0x3FD381D7DBF487FD ≤ 1 := by decide +kernel
  constructor
  · intro h
    by_contra hm
    exact absurd (round64_nonneg (div_nonneg (not_lt.mp hm) hC.le)) (not_le.mpr h)
  · intro h
    have hfinest := pow2_le_abs_val64 h.ne
    rw [abs_of_neg h] at hfinest
    have hpos := round64_pos (hfinest.trans (le_div_self (neg_pos.mpr h).le hC hC₁))
    rwa [neg_div, round64_neg, neg_pos] at hpos

/-- Settles O37: a negative quotient does not round to 0, and one that overflows answers `-∞`. -/
theorem feetKeepTheSignOfMetres : Obligations.FeetKeepTheSignOfMetres := by
  intro a f _
  cases a with
  | exact =>
    rw [feet_exact, Num.lt, decide_eq_true_iff, div_lt_iff₀ (by norm_num), zero_mul]
  | binary64 => rw [feet_binary64, flNum_lt_zero_iff, fl_binary64, round64_feet_neg_iff]

/-- Finite feet are a number that R72 can answer. -/
theorem feetValue_of_feet_eq_fin {m ft : Rat} (h : feet .binary64 m = .fin ft) : feetValue .binary64 ft := by
  rw [feet_binary64, flNum_binary64] at h
  split_ifs at h with h₁ h₂
  cases h
  obtain ⟨b, hfin, hval, -⟩ := exists_val64_eq_round64 (abs_lt.mpr ⟨not_le.mp h₂, not_le.mp h₁⟩)
  exact .inr ⟨b, hfin, hval⟩

end Sys2Proof.Machine
end

section
/-! PROOFS. The barometric counters (R76, R78): their ranges in both `ARITH` modes. -/

namespace Sys2Proof.Machine
open Sys2Proof.Safety

/-- The quotient of R76 is monotonic, as both of its roundings are. -/
theorem q1Quotient_mono (a : Arith) {q r : Rat} (h₀ : 0 ≤ q) (h : q ≤ r) :
    fl a (fl a (q + 1000) / 25) ≤ fl a (fl a (r + 1000) / 25) := by
  have hsum : fl a (q + 1000) ≤ fl a (r + 1000) := fl_mono a (by linarith) (by linarith)
  exact fl_mono a (div_nonneg (fl_nonneg a (by linarith)) (by norm_num)) (div_le_div_of_nonneg_right hsum (by norm_num))

theorem q1Quotient_zero (a : Arith) : fl a (fl a (0 + 1000) / 25) = 40 := by
  cases a <;> decide +kernel

/-- R76: below 50175 ft the last quotient in `BINARY64` is not rounded up to 2047. -/
theorem q1Quotient_lt {a : Arith} {ft : Rat} (hv : feetValue a ft) (h₀ : 0 ≤ ft) (h : ft < 50175) :
    fl a (fl a (ft + 1000) / 25) < 2047 := by
  cases a with
  | exact =>
    rw [fl_exact, fl_exact]
    linarith
  | binary64 =>
    obtain hexact | ⟨f, -, rfl⟩ := hv
    · cases hexact
    · have hlast : fl .binary64 (fl .binary64 (50175 - pow2 (-37) + 1000) / 25) < 2047 := by decide +kernel
      have hle : val64 f ≤ 50175 - pow2 (-37) :=
        val64_le_sub_pow2 (n := 50175 * 2 ^ 37) (by decide +kernel) (by decide) h
      exact (q1Quotient_mono _ h₀ hle).trans_lt hlast

/-- Settles O40: the quotient of R76 is from 40 to below 2047. -/
theorem q1CountFitsElevenBits : Obligations.Q1CountFitsElevenBits := by
  intro a ft hv h₀ h
  have hlow := q1Quotient_mono a le_rfl h₀
  rw [q1Quotient_zero] at hlow
  exact ⟨Int.le_floor.mpr (by exact_mod_cast hlow),
    Int.lt_add_one_iff.mp (Int.floor_lt.mpr (by exact_mod_cast q1Quotient_lt hv h₀ h))⟩

/-- R78: the biased altitude reaches 128000 exactly from 126700 ft on, in both modes. -/
theorem le_biased_iff {a : Arith} {ft : Rat} (hv : feetValue a ft) (h₀ : 0 ≤ ft) :
    128000 ≤ fl a (ft + 1300) ↔ 126700 ≤ ft := by
  cases a with
  | exact =>
    rw [fl_exact]
    constructor <;> intro h <;> linarith
  | binary64 =>
    obtain hexact | ⟨f, -, rfl⟩ := hv
    · cases hexact
    constructor
    · intro h
      by_contra hlt
      have hlast : fl .binary64 (126700 - pow2 (-36) + 1300) < 128000 := by decide +kernel
      have hle : val64 f ≤ 126700 - pow2 (-36) :=
        val64_le_sub_pow2 (n := 126700 * 2 ^ 36) (by decide +kernel) (by decide) (not_le.mp hlt)
      have hmono : fl .binary64 (val64 f + 1300) ≤ fl .binary64 (126700 - pow2 (-36) + 1300) :=
        fl_mono .binary64 (by linarith) (by linarith)
      linarith
    · intro h
      have hfix : fl .binary64 128000 = 128000 := by decide +kernel
      exact hfix.symm.trans_le (fl_mono .binary64 (by norm_num) (by linarith))

/-- R78: from 50175 ft on the biased altitude is at least 51475, in both modes. -/
theorem biased_ge (a : Arith) {ft : Rat} (h : 50175 ≤ ft) : 51475 ≤ fl a (ft + 1300) := by
  have hfix : fl a 51475 = 51475 := by cases a <;> decide +kernel
  exact hfix.symm.trans_le (fl_mono a (by norm_num) (by linarith))

/-- R78: the 500-ft count is the number of whole 500-ft steps. -/
theorem count500_bracket {b : Rat} (h : 0 ≤ b) : 500 * (count500 b : Rat) ≤ b ∧ b < 500 * (count500 b + 1) := by
  have hcast : ((count500 b : Int) : Rat) = ⌊b / 500⌋ :=
    congrArg _ (Int.toNat_of_nonneg (Int.floor_nonneg.mpr (by linarith)))
  have hlo := Int.floor_le (b / 500)
  have hhi := Int.lt_floor_add_one (b / 500)
  rw [← hcast, Int.cast_natCast] at hlo hhi
  constructor <;> linarith

/-- R78: less than 500 ft lie above the 500-ft steps. -/
theorem count100_le_four {b : Rat} (h : 0 ≤ b) : count100 b ≤ 4 := by
  obtain ⟨-, hhi⟩ := count500_bracket h
  have hlt : ⌊(b - 500 * count500 b) / 100⌋ < 5 := Int.floor_lt.mpr (by push_cast; linarith)
  unfold count100
  omega

theorem altQ0_eq_range {p : Params} {ft : Rat} (h : 128000 ≤ fl p.arith (ft + 1300)) :
    altQ0 p (.fin ft) = .error ⟨.range, .alt, 0⟩ :=
  (altQ0_cases p ft).elim And.right fun ⟨hlt, _⟩ => absurd h (not_le.mpr hlt)

theorem altQ0_eq_ok {p : Params} {ft : Rat} (h : fl p.arith (ft + 1300) < 128000) :
    altQ0 p (.fin ft) = .ok (q0Code p (fl p.arith (ft + 1300))) :=
  (altQ0_cases p ft).elim (fun ⟨hle, _⟩ => absurd h (not_lt.mpr hle)) And.right

/-- Settles O43: the biased altitude is from 51475 to below 128000, and each count is of whole steps. -/
theorem q0CountersStayInRange : Obligations.Q0CountersStayInRange := by
  intro p ft hv hft
  have hbias := le_biased_iff hv (by linarith)
  refine ⟨⟨fun h => ?_, fun h => altQ0_eq_range (hbias.mpr h)⟩, fun hlt => ?_⟩
  · by_contra hlt
    rw [altQ0_eq_ok (not_le.mp (mt hbias.mp hlt))] at h
    cases h
  · have hlow := biased_ge p.arith hft
    have hhigh := not_le.mp (mt hbias.mp (not_le.mpr hlt))
    have hpos : 0 ≤ fl p.arith (ft + 1300) := by linarith
    obtain ⟨hlo, hhi⟩ := count500_bracket hpos
    refine ⟨?_, ?_, count100_le_four hpos⟩
    · have : (102 : Rat) < count500 (fl p.arith (ft + 1300)) + 1 := by linarith
      exact Nat.lt_add_one_iff.mp (by exact_mod_cast this)
    · have : (count500 (fl p.arith (ft + 1300)) : Rat) < 255 + 1 := by linarith
      exact Nat.lt_add_one_iff.mp (by exact_mod_cast this)

end Sys2Proof.Machine
end

section
/-! PROOFS. The command `alt` (R80, R81): the checks, then the encoding the operand and the feet choose. -/

namespace Sys2Proof.Machine
open Sys2Proof.Safety

theorem checkAlt_of_not_finite (p : Params) {f : Binary64} (h : isFinite64 f = false) :
    checkAlt p f = .error ⟨.range, .alt, 0⟩ := by
  simp [checkAlt, h, raise]

theorem checkAlt_of_neg (p : Params) {f : Binary64} (h : isFinite64 f = true) (hneg : val64 f < 0) :
    checkAlt p f = .error ⟨.validation, .alt, 0⟩ := by
  simp [checkAlt, h, (feetKeepTheSignOfMetres p.arith f h).mpr hneg, raise]

theorem checkAlt_of_nonneg (p : Params) {f : Binary64} (h : isFinite64 f = true) (hpos : 0 ≤ val64 f) :
    checkAlt p f = .ok () := by
  have hft := mt (feetKeepTheSignOfMetres p.arith f h).mp (not_lt.mpr hpos)
  simp [checkAlt, h, hft]

/-- The data of `alt` as a number: the kind above the 12-bit code (R81). -/
theorem altData_eq_ofNat (kind : AltKind) (code : BitVec 12) :
    (kindCode kind ++ code).setWidth 112 = BitVec.ofNat 112 ((kindCode kind).toNat * 2 ^ 12 + code.toNat) := by
  rw [← toNat_append_eq, BitVec.ofNat_toNat]

@[simp] theorem toNat_kindCode_gnss : (kindCode .gnss).toNat = 0 := rfl
@[simp] theorem toNat_kindCode_q1 : (kindCode .q1).toNat = 1 := rfl
@[simp] theorem toNat_kindCode_q0 : (kindCode .q0).toNat = 2 := rfl

theorem exec_alt_of_error {gnss : Bool} {f : Binary64} {e : CommandError} (s : State)
    (h : altEncode params f gnss = .error e) :
    exec (.alt gnss f) s = .next (s.respond ⟨statusCode e.status, errorDetail e⟩) := by
  rw [exec_eq_respond, commandResult, altCommand_eq, h]
  rfl

theorem exec_alt_of_ok {gnss : Bool} {f : Binary64} {kind : AltKind} {code : BitVec 12} (s : State)
    (h : altEncode params f gnss = .ok (kind, code)) :
    exec (.alt gnss f) s =
      .next (s.respond ⟨0, BitVec.ofNat 112 ((kindCode kind).toNat * 2 ^ 12 + code.toNat)⟩) := by
  rw [exec_eq_respond, commandResult, altCommand_eq, h, ← altData_eq_ofNat]
  rfl

theorem altEncode_of_checkAlt_error {p : Params} {f : Binary64} {e : CommandError} (gnss : Bool)
    (h : checkAlt p f = .error e) : altEncode p f gnss = .error e := by
  rw [altEncode, h]
  rfl

/-- An altitude that passes the checks is encoded as metres where `gnss` is set (R74, R80). -/
theorem altEncode_gnss_of_nonneg (p : Params) {f : Binary64} (h : isFinite64 f = true) (hpos : 0 ≤ val64 f) :
    altEncode p f true = (altGnss p (val64 f)).map fun code => (.gnss, code) := by
  rw [altEncode, checkAlt_of_nonneg p h hpos]
  rfl

/-- An altitude that passes the checks is encoded as feet where `gnss` is not set (R74, R80). -/
theorem altEncode_baro_of_nonneg (p : Params) {f : Binary64} (h : isFinite64 f = true) (hpos : 0 ≤ val64 f) :
    altEncode p f false = altBaro p (feet p.arith (val64 f)) := by
  rw [altEncode, checkAlt_of_nonneg p h hpos]
  rfl

theorem exec_alt_of_not_finite (gnss : Bool) {f : Binary64} (s : State) (h : isFinite64 f = false) :
    exec (.alt gnss f) s = .next (s.respond ⟨3, 0x5⟩) :=
  exec_alt_of_error s (altEncode_of_checkAlt_error gnss (checkAlt_of_not_finite params h))

theorem exec_alt_of_neg (gnss : Bool) {f : Binary64} (s : State) (h : isFinite64 f = true) (hneg : val64 f < 0) :
    exec (.alt gnss f) s = .next (s.respond ⟨2, 0x5⟩) :=
  exec_alt_of_error s (altEncode_of_checkAlt_error gnss (checkAlt_of_neg params h hneg))

theorem altGnss_eq_range {p : Params} {m : Rat} (h : 4095 < roundInt p.roundTie m) :
    altGnss p m = .error ⟨.range, .alt, 0⟩ :=
  (altGnss_cases p m).elim And.right fun ⟨hle, _⟩ => absurd h (not_lt.mpr hle)

theorem altGnss_eq_ok {p : Params} {m : Rat} (h : roundInt p.roundTie m ≤ 4095) :
    altGnss p m = .ok (BitVec.ofInt 12 (roundInt p.roundTie m)) :=
  (altGnss_cases p m).elim (fun ⟨hlt, _⟩ => absurd h (not_le.mpr hlt)) And.right

/-- Settles O38: the checks, then the bound on the rounded metres, which fit 12 bits. -/
theorem gnssAltitudeIsRoundedMetres : Obligations.GnssAltitudeIsRoundedMetres := by
  intro f s
  refine ⟨exec_alt_of_not_finite true s, exec_alt_of_neg true s, fun hfin hpos hhigh => ?_, fun hfin hpos hfits => ?_⟩
  · have henc := altEncode_gnss_of_nonneg params hfin hpos
    rw [altGnss_eq_range hhigh] at henc
    exact exec_alt_of_error s henc
  · have henc := altEncode_gnss_of_nonneg params hfin hpos
    rw [altGnss_eq_ok hfits] at henc
    have hcode : (BitVec.ofInt 12 (roundInt .even (val64 f))).toNat = (roundInt .even (val64 f)).toNat := by
      have hr := roundInt_nonneg .even hpos
      rw [BitVec.toNat_ofInt]
      omega
    rw [exec_alt_of_ok s henc, params, hcode, toNat_kindCode_gnss, zero_mul, zero_add]

theorem altBaro_of_lt {p : Params} {ft : Rat} (h : ft < 50175) :
    altBaro p (.fin ft) = .ok (.q1, q1Code (BitVec.ofInt 11 (q1Count p.arith ft))) :=
  if_pos h

theorem altBaro_of_ge {p : Params} {ft : Rat} (h : 50175 ≤ ft) :
    altBaro p (.fin ft) = (altQ0 p (.fin ft)).map fun code => (.q0, code) :=
  if_neg (not_lt.mpr h)

section
variable {p : Params} {ft : Rat} (hv : feetValue p.arith ft) (hge : 50175 ≤ ft)
include hv hge

theorem altBaro_eq_q0 (hlt : ft < 126700) : altBaro p (.fin ft) = .ok (.q0, q0Code p (fl p.arith (ft + 1300))) := by
  have hbias := mt (le_biased_iff hv (by linarith)).mp (not_le.mpr hlt)
  rw [altBaro_of_ge hge, altQ0_eq_ok (not_le.mp hbias)]
  rfl

theorem altBaro_eq_range (hhigh : 126700 ≤ ft) : altBaro p (.fin ft) = .error ⟨.range, .alt, 0⟩ := by
  rw [altBaro_of_ge hge, altQ0_eq_range ((le_biased_iff hv (by linarith)).mpr hhigh)]
  rfl

end

/-- Settles O39: the checks, then the choice by the feet; the Q0 code ends where the biased altitude reaches 128000. -/
theorem barometricAltitudeIsChosenByFeet : Obligations.BarometricAltitudeIsChosenByFeet := by
  intro f s
  have henc {ft : Num} (hfin : isFinite64 f = true) (hpos : 0 ≤ val64 f) (hft : feet .binary64 (val64 f) = ft) :
      altEncode params f false = altBaro params ft :=
    hft ▸ altEncode_baro_of_nonneg params hfin hpos
  refine ⟨exec_alt_of_not_finite false s, exec_alt_of_neg false s,
    fun hfin hpos hft => exec_alt_of_error s (henc hfin hpos hft), fun ft hfin hpos hft => ?_⟩
  have hv : feetValue params.arith ft := feetValue_of_feet_eq_fin hft
  refine ⟨fun hlt => ?_, fun hge hlt => ?_, fun hhigh => ?_⟩
  · rw [exec_alt_of_ok s ((henc hfin hpos hft).trans (altBaro_of_lt hlt)), toNat_kindCode_q1, one_mul,
      params]
  · rw [exec_alt_of_ok s ((henc hfin hpos hft).trans (altBaro_eq_q0 hv hge hlt)), toNat_kindCode_q0, params]
  · exact exec_alt_of_error s ((henc hfin hpos hft).trans (altBaro_eq_range hv (by linarith) hhigh))

end Sys2Proof.Machine
end

section
/-! PROOFS. The errors a command can end in (R95): those of the check it ends in, part by part and then by command. -/

namespace Sys2Proof.Machine
open Sys2Proof.Safety

theorem except_map_eq_error_iff {ε α β : Type} {x : Except ε α} {f : α → β} {e : ε} :
    x.map f = .error e ↔ x = .error e := by
  cases x <;> simp [Except.map]

theorem except_bind_eq_error_iff {ε α β : Type} {x : Except ε α} {f : α → Except ε β} {e : ε} :
    x.bind f = .error e ↔ x = .error e ∨ ∃ a, x = .ok a ∧ f a = .error e := by
  cases x <;> simp [Except.bind]

theorem altEncode_eq (p : Params) (f : Binary64) (gnss : Bool) :
    altEncode p f gnss = (checkAlt p f).bind fun _ =>
      if gnss then (altGnss p (val64 f)).map fun code => (.gnss, code) else altBaro p (feet p.arith (val64 f)) := rfl

section
variable {p : Params} {f : Binary64} {e : CommandError}

theorem eq_of_checkLat_error (h : checkLat f = .error e) : e = ⟨.range, .lat, 0⟩ := by
  obtain ⟨-, hok⟩ | ⟨-, herr⟩ := checkLat_cases f
  · exact nomatch hok.symm.trans h
  · exact Except.error.inj (h.symm.trans herr)

theorem eq_of_checkLon_error (h : checkLon f = .error e) : e = ⟨.range, .lon, 0⟩ := by
  obtain ⟨-, hok⟩ | ⟨-, herr⟩ := checkLon_cases f
  · exact nomatch hok.symm.trans h
  · exact Except.error.inj (h.symm.trans herr)

theorem eq_or_eq_of_checkAlt_error (h : checkAlt p f = .error e) :
    e = ⟨.range, .alt, 0⟩ ∨ e = ⟨.validation, .alt, 0⟩ := by
  obtain ⟨-, herr⟩ | ⟨-, -, herr⟩ | ⟨-, -, hok⟩ := checkAlt_cases p f
  · exact .inl (Except.error.inj (h.symm.trans herr))
  · exact .inr (Except.error.inj (h.symm.trans herr))
  · exact nomatch hok.symm.trans h

theorem eq_of_altGnss_error {m : Rat} (h : altGnss p m = .error e) : e = ⟨.range, .alt, 0⟩ := by
  obtain ⟨-, herr⟩ | ⟨-, hok⟩ := altGnss_cases p m
  · exact Except.error.inj (h.symm.trans herr)
  · exact nomatch hok.symm.trans h

theorem eq_of_altQ0_error {ft : Num} (h : altQ0 p ft = .error e) : e = ⟨.range, .alt, 0⟩ := by
  cases ft with
  | fin x =>
    obtain ⟨-, herr⟩ | ⟨-, hok⟩ := altQ0_cases p x
    · exact Except.error.inj (h.symm.trans herr)
    · exact nomatch hok.symm.trans h
  | posInf => exact (Except.error.inj h).symm
  | negInf => exact (Except.error.inj h).symm

/-- The Q1 code has no error of its own (R76), so an error of the barometric encoding is the Q0 code's. -/
theorem eq_of_altBaro_error {ft : Num} (h : altBaro p ft = .error e) : e = ⟨.range, .alt, 0⟩ := by
  cases ft with
  | fin x =>
    rcases lt_or_ge x 50175 with hlow | hhigh
    · exact nomatch (altBaro_of_lt hlow).symm.trans h
    · rw [altBaro_of_ge hhigh, except_map_eq_error_iff] at h
      exact eq_of_altQ0_error h
  | posInf => exact (Except.error.inj h).symm
  | negInf => exact (Except.error.inj h).symm

theorem eq_or_eq_of_altEncode_error {gnss : Bool} (h : altEncode p f gnss = .error e) :
    e = ⟨.range, .alt, 0⟩ ∨ e = ⟨.validation, .alt, 0⟩ := by
  rw [altEncode_eq, except_bind_eq_error_iff] at h
  obtain hcheck | ⟨-, -, hcode⟩ := h
  · exact eq_or_eq_of_checkAlt_error hcheck
  · cases gnss with
    | true => exact .inl (eq_of_altGnss_error (except_map_eq_error_iff.mp hcode))
    | false => exact .inl (eq_of_altBaro_error hcode)

/-- A callsign's error is its length's, or that of a given character outside the alphabet (R85). -/
theorem callsign_error_cases {cslen : BitVec 4} {cs : BitVec 64} (h : callsign cslen cs = .error e) :
    (e = ⟨.range, .cslen, 0⟩ ∧ 8 < cslen.toNat) ∨
      ∃ i < cslen.toNat, e = ⟨.validation, .cschar, BitVec.ofNat 4 i⟩ ∧ charCode (csByte cs i) = none := by
  obtain ⟨hlen, herr⟩ | ⟨-, i, hfirst, herr⟩ | ⟨-, -, hok⟩ := callsign_cases cslen cs
  · exact .inl ⟨Except.error.inj (h.symm.trans herr), hlen⟩
  · obtain ⟨hi, hnone, -⟩ := (firstInvalid_eq_some_iff cs _ i).mp hfirst
    exact .inr ⟨i, hi, Except.error.inj (h.symm.trans herr), hnone⟩
  · exact nomatch hok.symm.trans h

end

/-- Settles O21, by the command: its error is that of the check it ends in. -/
theorem errorsAreThoseOfTheCauseTable : Obligations.ErrorsAreThoseOfTheCauseTable := by
  intro p i e h
  cases i with
  | parity frame => exact nomatch h
  | syndrome frame => exact nomatch h
  | frame ca icao me => exact nomatch h
  | nl lat =>
    rw [commandResult, nlCommand_eq, except_map_eq_error_iff] at h
    exact eq_of_checkLat_error h
  | cpr odd lat lon =>
    simp only [commandResult, cprCommand_eq, except_bind_eq_error_iff, except_map_eq_error_iff] at h
    obtain hlat | ⟨-, -, hlon⟩ := h
    · exact .inl (eq_of_checkLat_error hlat)
    · exact .inr (eq_of_checkLon_error hlon)
  | alt gnss alt =>
    rw [commandResult, altCommand_eq, except_map_eq_error_iff] at h
    exact eq_or_eq_of_altEncode_error h
  | ident ca icao tc ec cslen cs =>
    rw [commandResult, identCommand_eq, except_map_eq_error_iff] at h
    exact callsign_error_cases h
  | pos ca icao tc ss saf gnss t odd alt lat lon =>
    simp only [commandResult, posCommand_eq, except_bind_eq_error_iff, except_map_eq_error_iff] at h
    obtain halt | ⟨-, -, hlat | ⟨-, -, hlon⟩⟩ := h
    · exact (eq_or_eq_of_altEncode_error halt).imp_right .inl
    · exact .inr (.inr (.inl (eq_of_checkLat_error hlat)))
    · exact .inr (.inr (.inr (eq_of_checkLon_error hlon)))

end Sys2Proof.Machine
end

section
/-! PROOFS. The callsign alphabet (R84). -/

namespace Sys2Proof.Machine

/-- A capital letter's code is its position in the alphabet, which 6 bits hold (R84). -/
theorem toNat_letterCode {ch : Byte} (h₁ : 0x41 ≤ ch.toNat) (h₂ : ch.toNat ≤ 0x5A) :
    ((ch - 0x40).setWidth 6).toNat = ch.toNat - 0x40 := by
  have hle : (0x40 : Byte) ≤ ch := (by decide : 0x40 ≤ 0x41).trans h₁
  rw [BitVec.toNat_setWidth, BitVec.toNat_sub_of_le hle, show (0x40 : Byte).toNat = 0x40 from rfl]
  omega

/-- A digit's code is the character itself, which 6 bits hold (R84). -/
theorem toNat_digitCode {ch : Byte} (h : ch.toNat ≤ 0x39) : (ch.setWidth 6).toNat = ch.toNat := by
  rw [BitVec.toNat_setWidth]
  omega

/-- Settles O49, by the three ranges of the alphabet, no two of which overlap. -/
theorem callsignAlphabetIsSpaceLettersDigits : Obligations.CallsignAlphabetIsSpaceLettersDigits := by
  intro ch k
  have hspace : ch = 0x20 ↔ ch.toNat = 0x20 := BitVec.toNat_inj.symm
  have hletter : (0x41 ≤ ch ∧ ch ≤ 0x5A) ↔ (0x41 ≤ ch.toNat ∧ ch.toNat ≤ 0x5A) := Iff.rfl
  have hdigit : (0x30 ≤ ch ∧ ch ≤ 0x39) ↔ (0x30 ≤ ch.toNat ∧ ch.toNat ≤ 0x39) := Iff.rfl
  simp only [charCode, hspace, hletter, hdigit]
  split_ifs with h h h
  · rw [Option.some_inj, ← BitVec.toNat_inj, show (32 : BitVec 6).toNat = 32 from rfl]
    omega
  · obtain ⟨hlow, hhigh⟩ := h
    rw [Option.some_inj, ← BitVec.toNat_inj, toNat_letterCode hlow hhigh]
    omega
  · obtain ⟨hlow, hhigh⟩ := h
    rw [Option.some_inj, ← BitVec.toNat_inj, toNat_digitCode hhigh]
    omega
  · simp only [false_iff]
    omega

end Sys2Proof.Machine
end

section
/-! PROOFS. The frame a command answers with (R82, R83, R91): its fields, its parity and its rendering. -/

namespace Sys2Proof.Machine
open Sys2Proof.Safety

/-- The first byte of a frame: DF 17 in the top five bits, CA below it (R82). -/
theorem df_append_ca_eq (ca : BitVec 3) : 17#5 ++ ca = (17#8 <<< 3) ||| ca.setWidth 8 := by
  revert ca
  decide

section
variable (ca : BitVec 3) (icao : BitVec 24) (me : MsgElem)

theorem extractLsb'_buildFrame_header : (buildFrame ca icao me).extractLsb' 24 88 = h88 ca icao me :=
  BitVec.extractLsb'_append_eq_left

theorem extractLsb'_buildFrame_first_byte :
    (buildFrame ca icao me).extractLsb' 104 8 = (17#8 <<< 3) ||| ca.setWidth 8 := by
  simp (disch := omega) only [buildFrame, h88, BitVec.extractLsb'_append_eq_of_le]
  exact BitVec.extractLsb'_eq_self.trans (df_append_ca_eq ca)

theorem extractLsb'_buildFrame_icao : (buildFrame ca icao me).extractLsb' 80 24 = icao := by
  simp (disch := omega) only [buildFrame, h88, BitVec.extractLsb'_append_eq_of_le]
  exact BitVec.extractLsb'_append_eq_right

theorem crc24_buildFrame : crc24 (buildFrame ca icao me) false = 0 := syndromeOfAParityFrameIsZero (h88 ca icao me)

end

theorem hexDigit_mem (n : BitVec 4) : hexDigit n ∈ "0123456789ABCDEF".toList := by
  revert n
  decide

/-- Digits 2 to 7 of a frame lie in its address field (R30). -/
theorem frameNibble_two_add (m : Frame) {k : Nat} (hk : k < 6) :
    frameNibble m (2 + k) = (m.extractLsb' 80 24).extractLsb' (20 - 4 * k) 4 := by
  apply BitVec.eq_of_getLsbD_eq
  intro j hj
  have hbit : 108 - 4 * (2 + k) + j = 80 + (20 - 4 * k + j) := by omega
  have hfield : 20 - 4 * k + j < 24 := by omega
  simp only [frameNibble, BitVec.getLsbD_extractLsb', hbit, hfield, decide_true, Bool.true_and]

/-- Settles O58, field by field. -/
theorem buildFrameAppendsTheParityOfItsHeader : Obligations.BuildFrameAppendsTheParityOfItsHeader :=
  fun ca icao me => ⟨extractLsb'_buildFrame_header ca icao me, extractLsb'_buildFrame_first_byte ca icao me, rfl⟩

/-- Settles O46: the command answers the frame it builds, whatever the state. -/
theorem frameAnswersTheAssembledFrame : Obligations.FrameAnswersTheAssembledFrame :=
  fun ca icao me s => exec_eq_respond (.frame ca icao me) s

/-- Settles O52: each of the commands answers a built frame, and the guarantees are those of its fields and parity. -/
theorem producedFramesKeepTheGuarantees : Obligations.ProducedFramesKeepTheGuarantees := by
  intro p i m ca icao _ haddress h
  obtain ⟨me, rfl⟩ := exists_buildFrame_of_ok haddress h
  refine ⟨extractLsb'_buildFrame_first_byte ca icao me, extractLsb'_buildFrame_icao ca icao me,
    crc24_buildFrame ca icao me, length_renderFrame _, ?_, fun k hk => ?_⟩
  · exact List.forall_mem_map.mpr fun k _ => hexDigit_mem _
  · rw [frameNibble_two_add _ hk, extractLsb'_buildFrame_icao]

end Sys2Proof.Machine
end

section
/-! PROOFS. How a step can stop (R99, R105, R108 (a)): the one rule that answers no next state is `notHeld`. -/

namespace Sys2Proof.Machine

variable {s : State}

theorem step_of_notHeld (hrst : s.ports.rst = false) (hhold : s.holdBroken s.ports = true) :
    step s = .refused .commandNotHeld := by
  simp [step, State.nextAction, hrst, hhold]

/-- Under reset, or where the host holds its command, whichever rule applies answers a next state. -/
theorem exists_step_eq_next (h : s.ports.rst = true ∨ s.holdBroken s.ports = false) : ∃ t, step s = .next t := by
  rcases nextAction_cases s s.ports with ⟨hrst, -⟩ | ⟨hrst, hhold, -⟩ | ⟨hrst, hhold, hrule⟩
  · exact ⟨_, step_of_reset hrst⟩
  · simp [hrst, hhold] at h
  · obtain ⟨hbusy, hcmd, -⟩ | ⟨hbusy, hcmd, -⟩ | ⟨-, -, -, hcomplete⟩ | ⟨hbusy, hrsp, hwait, -⟩ |
      ⟨hbusy, hrsp, hready, -⟩ | ⟨hbusy, hrsp, hready, -⟩ := hrule
    · exact ⟨_, step_of_accept hrst hhold hbusy hcmd⟩
    · exact ⟨_, step_of_idle hrst hhold hbusy hcmd⟩
    · exact ⟨_, step_of_complete hcomplete⟩
    · exact ⟨_, step_of_compute hrst hhold hbusy hrsp hwait⟩
    · exact ⟨_, step_of_deliver hrst hhold hbusy hrsp hready⟩
    · exact ⟨_, step_of_stall hrst hhold hbusy hrsp hready⟩

theorem step_eq_refused_iff (s : State) (r : Refusal) :
    step s = .refused r ↔ r = .commandNotHeld ∧ s.ports.rst = false ∧ s.holdBroken s.ports = true := by
  constructor
  · intro h
    have hstopped : ¬ (s.ports.rst = true ∨ s.holdBroken s.ports = false) := fun hnext => by
      obtain ⟨t, ht⟩ := exists_step_eq_next hnext
      exact nomatch h.symm.trans ht
    obtain ⟨hrst, hhold⟩ : s.ports.rst = false ∧ s.holdBroken s.ports = true := by simpa using hstopped
    exact ⟨Host.Outcome.refused.inj (h.symm.trans (step_of_notHeld hrst hhold)), hrst, hhold⟩
  · rintro ⟨rfl, hrst, hhold⟩
    exact step_of_notHeld hrst hhold

/-- Settles O13: there is no fault to raise, and the refusing rule is the broken hold's. -/
theorem stepStopsOnlyForAnUnheldCommand : Obligations.StepStopsOnlyForAnUnheldCommand := by
  refine fun s => ⟨(nomatch ·), fun r => ?_⟩
  rw [step_eq_refused_iff, State.holdBroken_eq_true_iff]

end Sys2Proof.Machine
end

section
/-! PROOFS. The error response (R92, R93, R94): the parts of the error detail, and the index each error carries. -/

namespace Sys2Proof.Machine
open Sys2Proof.Safety

theorem toNat_statusCode_le (st : Status) : (statusCode st).toNat ≤ 3 := by
  cases st <;> decide

theorem toNat_fieldId_bounds (f : Field) : 1 ≤ (fieldId f).toNat ∧ (fieldId f).toNat ≤ 7 := by
  cases f <;> decide

theorem fieldId_eq_four_iff (f : Field) : fieldId f = 4 ↔ f = .cschar := by
  cases f <;> decide

@[simp] theorem extractLsb'_errorDetail_field (e : CommandError) : (errorDetail e).extractLsb' 0 8 = fieldId e.field :=
  BitVec.extractLsb'_append_eq_right

@[simp] theorem extractLsb'_errorDetail_index (e : CommandError) : (errorDetail e).extractLsb' 8 4 = e.index := by
  simp (disch := omega) only [errorDetail, BitVec.extractLsb'_append_eq_of_le]
  exact BitVec.extractLsb'_append_eq_right

@[simp] theorem extractLsb'_errorDetail_zeros (e : CommandError) : (errorDetail e).extractLsb' 12 100 = 0 := by
  simp (disch := omega) only [errorDetail, BitVec.extractLsb'_append_eq_of_le]
  exact BitVec.extractLsb'_eq_self

/-- The index R94 gives an error: that of one of the eight characters, and 0 for any field but `FIELD_CSCHAR`. -/
def CommandError.IndexFits (e : CommandError) : Prop := e.index.toNat ≤ 7 ∧ (e.field ≠ .cschar → e.index = 0)

section
variable {e : CommandError}

theorem CommandError.indexFits_of_index_eq_zero (h : e.index = 0) : e.IndexFits :=
  ⟨by simp [h], fun _ => h⟩

theorem indexFits_illegalError (il : Illegal) : (illegalError il).IndexFits :=
  CommandError.indexFits_of_index_eq_zero (by cases il <;> rfl)

/-- A length above 8 is an error before any character is read, so an invalid character is one of the first eight
(R85). -/
theorem indexFits_of_callsign_error {cslen : BitVec 4} {cs : BitVec 64} (h : callsign cslen cs = .error e) :
    e.IndexFits := by
  obtain ⟨-, herr⟩ | ⟨hlen, i, hfirst, herr⟩ | ⟨-, -, hok⟩ := callsign_cases cslen cs
  · obtain rfl := Except.error.inj (h.symm.trans herr)
    exact CommandError.indexFits_of_index_eq_zero rfl
  · obtain rfl := Except.error.inj (h.symm.trans herr)
    obtain ⟨hi, -⟩ := (firstInvalid_eq_some_iff cs _ i).mp hfirst
    have hmod : i % 2 ^ 4 ≤ 7 := (Nat.mod_le ..).trans (by omega)
    exact ⟨hmod, fun hfield => absurd rfl hfield⟩
  · exact nomatch hok.symm.trans h

/-- Of the errors of the cause table (R95), only a callsign's can carry an index. -/
theorem indexFits_of_commandResult_error {p : Params} {i : Instr} (h : commandResult p i = .error e) :
    e.IndexFits := by
  have hcause := errorsAreThoseOfTheCauseTable p i e h
  cases i with
  | parity frame => exact hcause.elim
  | syndrome frame => exact hcause.elim
  | frame ca icao me => exact hcause.elim
  | nl lat =>
    obtain rfl := hcause
    exact CommandError.indexFits_of_index_eq_zero rfl
  | cpr odd lat lon =>
    obtain rfl | rfl := hcause <;> exact CommandError.indexFits_of_index_eq_zero rfl
  | alt gnss alt =>
    obtain rfl | rfl := hcause <;> exact CommandError.indexFits_of_index_eq_zero rfl
  | ident ca icao tc ec cslen cs =>
    rw [commandResult, identCommand_eq, except_map_eq_error_iff] at h
    exact indexFits_of_callsign_error h
  | pos ca icao tc ss saf gnss t odd alt lat lon =>
    obtain rfl | rfl | rfl | rfl := hcause <;> exact CommandError.indexFits_of_index_eq_zero rfl

end

/-- What `Execute` ends in under any parameters (R39): a result, or an error whose index fits. -/
theorem executeWith_cases (p : Params) (c : Command) :
    (∃ d, executeWith p c = responseOf (.ok d)) ∨ ∃ e, e.IndexFits ∧ executeWith p c = responseOf (.error e) := by
  unfold executeWith
  cases decode c with
  | error il => exact .inr ⟨_, indexFits_illegalError il, rfl⟩
  | ok i =>
    cases hresult : commandResult p i with
    | ok d => exact .inl ⟨d, congrArg responseOf hresult⟩
    | error e => exact .inr ⟨e, indexFits_of_commandResult_error hresult, congrArg responseOf hresult⟩

/-- Settles O20, by what the command ends in; an error's detail is read back field by field. -/
theorem errorDetailNamesTheField : Obligations.ErrorDetailNamesTheField := by
  intro p c
  obtain ⟨d, hok⟩ | ⟨e, ⟨hindex, hzero⟩, herr⟩ := executeWith_cases p c
  · simp [hok]
  · obtain ⟨hlow, hhigh⟩ := toNat_fieldId_bounds e.field
    simp only [herr, responseOf_error, extractLsb'_errorDetail_field, extractLsb'_errorDetail_index,
      extractLsb'_errorDetail_zeros, ne_eq, fieldId_eq_four_iff]
    exact ⟨toNat_statusCode_le e.status, fun _ => ⟨hlow, hhigh, hindex, hzero, trivial⟩⟩

end Sys2Proof.Machine
end
